-- ==== Sys2Proof/Word.lean ====
section
/-! DEFINITION. The words of the core: samples and outputs, bytes, command words (00_scope.md R9, R12; 30_encoding.md R66). -/

namespace Sys2Proof

/-- `SAMPLE_W`: the width of a sample and of a filter output (00_scope.md R9). -/
abbrev sampleW : Nat := 16

/-- A 16-bit sample or filter output, read as a two's-complement Q15 number through `BitVec.toInt` (R13, R51). -/
abbrev Sample := BitVec 16

/-- A filter coefficient, `COEF_W = 16` bits signed (R9). -/
abbrev Coef := BitVec 16

/-- A character of the UART (10_state.md R29). -/
abbrev Byte := BitVec 8

/-- A command word `W`, 19 bits (30_encoding.md R66). -/
abbrev CmdWord := BitVec 19

end Sys2Proof
end

