-- ==== Sys2Proof/Syntax.lean ====
section
/-! DEFINITION. The commands of the core, one constructor per row of spec/opcode_table.json (30_encoding.md R70, R74). -/

namespace Sys2Proof

/-- A decoded command. Ignored operand bits are not part of it (R69, R74). -/
inductive Instr where
  /-- NOP (R143). -/
  | nop
  /-- FILT `x` (R95). -/
  | filt (x : Sample)
  /-- DEMOD `x` (R109). -/
  | demod (x : Sample)
  /-- DECODE `b` (R134). -/
  | decode (b : Bool)
  /-- URST (R136). -/
  | urst
  /-- SAMPLE `x` (R141). -/
  | sample (x : Sample)
  /-- the reserved code `op = 0b110` (R145). -/
  | reserved110
  /-- the reserved code `op = 0b111` (R145). -/
  | reserved111
deriving DecidableEq, Repr

end Sys2Proof
end

