-- ==== Sys2Proof/Decode.lean ====
section
/-! DEFINITION. Decoding a 19-bit command word, total (30_encoding.md R66 to R74), and the encoder of R70 and R76. -/

namespace Sys2Proof

/-- `W[18:16]` (R66). -/
def wordOp (w : CmdWord) : BitVec 3 := w.extractLsb' 16 3

/-- `W[15:0]` (R66). -/
def wordData (w : CmdWord) : BitVec 16 := w.extractLsb' 0 16

/-- `decode(W)` of R74: `op` alone selects the command (R67), the operand comes from `data` (R68, R69). The eighth
arm is reached by `op = 0b111` only. -/
def decode (w : CmdWord) : Instr :=
  if wordOp w = 0b000#3 then .nop
  else if wordOp w = 0b001#3 then .filt (wordData w)
  else if wordOp w = 0b010#3 then .demod (wordData w)
  else if wordOp w = 0b011#3 then .decode ((wordData w).getLsbD 0)
  else if wordOp w = 0b100#3 then .urst
  else if wordOp w = 0b101#3 then .sample (wordData w)
  else if wordOp w = 0b110#3 then .reserved110
  else .reserved111

/-- The command selector of a command (R70). -/
def opcodeOf : Instr → BitVec 3
  | .nop => 0b000#3
  | .filt _ => 0b001#3
  | .demod _ => 0b010#3
  | .decode _ => 0b011#3
  | .urst => 0b100#3
  | .sample _ => 0b101#3
  | .reserved110 => 0b110#3
  | .reserved111 => 0b111#3

/-- The operand field of a command, ignored bits written as 0 (R69, R76). -/
def dataOf : Instr → BitVec 16
  | .nop => 0#16
  | .filt x => x
  | .demod x => x
  | .decode b => (BitVec.ofBool b).setWidth 16
  | .urst => 0#16
  | .sample x => x
  | .reserved110 => 0#16
  | .reserved111 => 0#16

/-- The word of a command, `op` above `data` (R66). For the reserved codes, which the assembler cannot emit, it gives
the word of operand 0 (notes/assumptions/13.md; DESIGN CHOICE). -/
def encode (i : Instr) : CmdWord := opcodeOf i ++ dataOf i

/-- Why a number is not a command word. -/
inductive DecodeError where
  /-- It does not fit the 19 wires of the command port (R66, R73). -/
  | moreThan19Bits
deriving DecidableEq, Repr

/-- Decoding of a number whose bit `k` is bit `k` of the word; any number is answered. -/
def decodeNumber (n : Nat) : Except DecodeError Instr :=
  if n < 2 ^ 19 then .ok (decode (BitVec.ofNat 19 n)) else .error .moreThan19Bits

/-- The decoder at a word of spec/opcode_table.json's numbering, cut to its `nbits` bits: a command is one 19-bit
word, so the table's bit `k` is bit `k` of the word (R12, R66; notes/assumptions/12.md). -/
def decodeTableWord (nbits w : Nat) : Option Instr :=
  match decodeNumber (w % 2 ^ nbits) with
  | .ok i => some i
  | .error _ => none

end Sys2Proof
end

