-- ==== Sys2Proof/Config.lean ====
section
/-! DEFINITION. The build parameters of the core (00_scope.md R9 to R11) and the build the reset state carries: its open parameters uninterpreted, its `ACC_W` the default. -/

namespace Sys2Proof

/-- `DELAY_LEN`, fixed at 22 for this hardware (R9, R114; 90_conflicts.md C1). -/
abbrev delayLen : Nat := 22

/-- `PROD_SHIFT`, the shift that brings the Q30 product back to Q15 (R9, R106). -/
abbrev prodShift : Nat := 15

/-- `FS`, the nominal sample rate in Hz (R9). No rule depends on it. -/
abbrev nominalSampleRate : Nat := 48000

/-- The rows of R9 marked OPEN, which the spec gives no value for. Every value of this type is within the ranges of R9 and
R11: the coefficients and `THRESH` are 16-bit signed words, and the bounded numbers are held as their distance from the
least value R11 allows, so one that R11 rules out cannot be written (notes/assumptions/3.md). -/
structure OpenParams where
  b0 : Coef
  b1 : Coef
  b2 : Coef
  a1 : Coef
  a2 : Coef
  /-- `COEF_SHIFT - 1`; `COEF_SHIFT` is in `1..15`. -/
  shiftSel : Fin 15
  /-- `THRESH`. -/
  thresh : BitVec 16
  /-- `SPB - 2`; `SPB` is at least 2. -/
  spbExtra : Nat
deriving DecidableEq, Repr, Inhabited

/-- The parameters of R9 that a build fixes: the OPEN ones, and `ACC_W`, which is 32 by default (R9, D10, U5). -/
structure Build extends OpenParams where
  /-- `ACC_W - 32`; `ACC_W` is at least 32, and 32 where a build does not say otherwise. -/
  accExtra : Nat := 0
deriving DecidableEq, Repr, Inhabited

/-- `COEF_SHIFT` (R9). -/
def Build.coefShift (B : Build) : Nat := B.shiftSel.val + 1

/-- `ACC_W` (R9). -/
def Build.accW (B : Build) : Nat := B.accExtra + 32

/-- `SPB`, the number of calls per UART bit (R9). -/
def Build.spb (B : Build) : Nat := B.spbExtra + 2

/-- `HALF = SPB div 2` (R9). -/
def Build.half (B : Build) : Nat := B.spb / 2

/-- `CNT_W = ceil(log2(SPB + 1))`, the width of `cnt` (R9, D40). -/
def Build.cntW (B : Build) : Nat := Nat.clog 2 (B.spb + 1)

/-- Parameters as raw numbers, before R11 has been checked. -/
structure Params where
  b0 : Int
  b1 : Int
  b2 : Int
  a1 : Int
  a2 : Int
  coefShift : Nat
  /-- 32 where nothing else is said (R9, D10). -/
  accW : Nat := 32
  thresh : Int
  spb : Nat
deriving DecidableEq, Repr

/-- The OPEN parameters of this core. The spec gives none of them a value (R9), so they are uninterpreted: no proof can
see one, and what holds at `State.reset` holds for all of them (notes/assumptions/2.md; DESIGN CHOICE). -/
opaque Config.openParams : OpenParams

/-- The build of this core: its OPEN parameters, and `ACC_W` at its default of 32 (R9, D10). -/
def Config.build : Build := { toOpenParams := Config.openParams }

end Sys2Proof
end

