-- ==== Sys2Proof/Machine/State.lean ====
section
/-! DEFINITION. The state of the core (10_state.md R29), its reset value (R44), and the reasons a step can stop. -/

namespace Sys2Proof.Machine

/-- One filter instance: the two signed accumulators of the DF2T recursion, `ACC_W` bits each (R30). They are held as
integers, and `FilterState.fits` says they fit the width (notes/assumptions/11.md). -/
structure FilterState where
  w1 : Int
  w2 : Int
deriving DecidableEq, Repr

/-- `DL[0..21]`, each entry one 16-bit sample (R32). -/
abbrev DelayLine := Vector Sample delayLen

/-- The discriminator: the embedded filter `F1`, the delay line and its write index (R29, R31 to R33). -/
structure DiscState where
  f1 : FilterState
  dl : DelayLine
  /-- `ptr`, 5 bits, the index of the oldest entry (R33). -/
  ptr : BitVec 5
deriving DecidableEq, Repr

/-- The four UART states (R34). -/
inductive UartPhase where
  | idle
  | start
  | data
  | stop
deriving DecidableEq, Repr

/-- The 2-bit encoding of `st` (R34). -/
def UartPhase.code : UartPhase → BitVec 2
  | .idle => 0b00#2
  | .start => 0b01#2
  | .data => 0b10#2
  | .stop => 0b11#2

/-- The UART decoder (R34 to R37). -/
structure UartState where
  st : UartPhase
  /-- calls within the current bit, `0..SPB` (R35). -/
  cnt : Nat
  /-- data bits sampled in the current frame, `0..8` (R35). -/
  bitn : BitVec 4
  /-- the byte being assembled (R35). -/
  acc : Byte
  /-- the held character (R36). -/
  rxc : Byte
  /-- the input bit of the previous UART call (R37). -/
  last : Bool
deriving DecidableEq, Repr

/-- The input ports in one clock cycle (30_encoding.md R65). -/
structure PortIn where
  rst : Bool
  cmdValid : Bool
  cmdOp : BitVec 3
  cmdData : BitVec 16
deriving DecidableEq, Repr

/-- The output ports (30_encoding.md R65). -/
structure Outputs where
  yOut : Sample
  bitOut : Bool
  byteValid : Bool
  byteOut : Byte
deriving DecidableEq, Repr

/-- The complete state (R29), the model-only observation (R47), the build the core was made with (R10), and the
input cycles the host has yet to present (notes/assumptions/1.md, notes/assumptions/4.md). -/
structure State where
  build : Build
  /-- the standalone filter instance `F0` (R31). -/
  f0 : FilterState
  disc : DiscState
  uart : UartState
  /-- the last FILT result (R38). -/
  yOut : Sample
  /-- the last demodulated bit (R38). -/
  bitOut : Bool
  /-- a character was completed by the command of the previous cycle (R39). -/
  byteValid : Bool
  /-- model only: some stored result differed from the exact one since `rst` (R47). -/
  rangeViolation : Bool
  /-- model only: what the host will present on the input ports, the next cycle first. -/
  inputs : List PortIn
deriving DecidableEq, Repr

/-- Why a step stops the machine. The hardware raises no exception (60_exceptions.md R151). -/
inductive Fault where
  /-- The state is outside the invariants of R42, which no run from reset is. Raised by every cycle but a reset cycle,
  through `complete` (R166, U13). Safe: the model stops where nothing is said of the hardware. -/
  | outsideInvariants
deriving DecidableEq, Repr

/-- Why something is not given a meaning. -/
inductive Refusal where
  /-- An instruction of the table that has no meaning in this model; no arm of `exec` answers it. Safe. -/
  | notModelled (mnemonic : String)
  /-- Parameters outside R9 or R11: raised by `buildOfParams`, before any machine of that build exists. Safe. -/
  | unsupportedBuild
  /-- A reserved code `op` was accepted (R145, R150): raised by every cycle that accepts one, through `perform`, and by
  `Safety.screenSequence` over a sequence that holds one. Safe: the model errs toward unprovable (R166). -/
  | reservedCommand (op : BitVec 3)
deriving DecidableEq, Repr

/-- A filter at rest (R44). -/
def FilterState.zero : FilterState := ⟨0, 0⟩

/-- The discriminator after `rst` (R44). -/
def DiscState.initial : DiscState := ⟨.zero, Vector.replicate delayLen 0#16, 0#5⟩

/-- The UART after `rst` and after URST (R44, R45). -/
def UartState.initial : UartState := ⟨.idle, 0, 0#4, 0x00#8, 0x00#8, true⟩

/-- The state after `rst` of a core of build `B`, with nothing presented (R44). -/
def State.resetOf (B : Build) : State where
  build := B
  f0 := .zero
  disc := .initial
  uart := .initial
  yOut := 0#16
  bitOut := false
  byteValid := false
  rangeViolation := false
  inputs := []

/-- The machine right after reset (R44, R168), of the build whose open parameters are uninterpreted (notes/assumptions/2.md). -/
def State.reset : State := State.resetOf Config.build

end Sys2Proof.Machine
end

