-- ==== Sys2Proof/Machine/Flags.lean ====
section
/-! DEFINITION. The core has no flags and no condition codes (10_state.md R27). What stands here is the one observation the
spec has a model keep beside the state, `range_violation`, and the rule that sets it (R47, 40_iir_filter.md R93). -/

namespace Sys2Proof.Machine

/-- A stored result differs from the exact one: the condition under which `flag_rv()` is called (R47, R87). -/
def differs (stored exact : Int) : Bool := decide (stored ≠ exact)

/-- `flag_rv()`, called when `v` holds: `range_violation` is set and never cleared by it (R47). -/
def flagRv (v : Bool) (s : State) : State := { s with rangeViolation := s.rangeViolation || v }

end Sys2Proof.Machine
end

