-- ==== Sys2Proof/Machine/Operands.lean ====
section
/-! DEFINITION. The operand forms: the signed sample (30_encoding.md R68), the data bit (R69), and the input port as a word (R66). -/

namespace Sys2Proof.Machine

/-- `sext_16`: the sample operand of FILT, DEMOD and SAMPLE as an integer (00_scope.md R14, R68). -/
def sampleOperand (x : Sample) : Int := x.toInt

/-- A coefficient or `THRESH` as an integer (R9, R86). -/
def signedParam (c : BitVec 16) : Int := c.toInt

/-- An integer stored in a 16-bit signed register (R13). -/
def toSample (v : Int) : Sample := BitVec.ofInt 16 v

/-- The command word driven on the port: `op` above `data` (R66). -/
def PortIn.word (p : PortIn) : CmdWord := p.cmdOp ++ p.cmdData

/-- A cycle that presents the command word `w`. -/
def PortIn.command (w : CmdWord) : PortIn := ⟨false, true, w.extractLsb' 16 3, w.extractLsb' 0 16⟩

/-- A cycle with `rst = 0` and `cmd_valid = 0` (43_pipeline_control.md R144). -/
def PortIn.idle : PortIn := ⟨false, false, 0#3, 0#16⟩

/-- A cycle with `rst = 1` and no command (70_reset_and_hazards.md R167). -/
def PortIn.reset : PortIn := ⟨true, false, 0#3, 0#16⟩

end Sys2Proof.Machine
end

