-- ==== Sys2Proof/AsmSyntax.lean ====
section
/-! DEFINITION. The abstract syntax of the spec's assembler: literals, commands and lines (30_encoding.md R75 to R77). -/

namespace Sys2Proof

/-- A sample operand as written: a decimal integer, or a `0xHHHH` bit pattern (R75). -/
inductive SampleLit where
  | dec (v : Int)
  | hex (v : Nat)
deriving DecidableEq, Repr

/-- One command as written, its operand not yet checked (R75). The reserved codes have no mnemonic (R76). -/
inductive AsmCommand where
  | nop
  | filt (x : SampleLit)
  | demod (x : SampleLit)
  | decode (b : Int)
  | urst
  | sample (x : SampleLit)
deriving DecidableEq, Repr

/-- One line of a program: a blank or comment line, a command with its number of copies (`<command> * <n>`, one copy
where no count is written), or `WAIT <n>` (R75, R77). -/
inductive AsmLine where
  | blank
  | command (c : AsmCommand) (copies : Nat)
  | wait (n : Nat)
deriving DecidableEq, Repr

end Sys2Proof
end

