-- ==== Sys2Proof/WellFormed.lean ====
section
/-! DEFINITION. The checks of the spec on what is written down: parameters (00_scope.md R9, R11), assembler operands
(30_encoding.md R76) and defined commands (R72). Every `Instr` and every `Build` is well-formed by its type. -/

namespace Sys2Proof

/-- `v` is a 16-bit signed value (R9, R76). -/
def inInt16 (v : Int) : Bool := decide (-32768 ≤ v) && decide (v ≤ 32767)

/-- The ranges of R9 and the bounds of R11. -/
def Params.wellFormed (p : Params) : Bool :=
  inInt16 p.b0 && inInt16 p.b1 && inInt16 p.b2 && inInt16 p.a1 && inInt16 p.a2 && inInt16 p.thresh
    && decide (1 ≤ p.coefShift) && decide (p.coefShift ≤ 15) && decide (32 ≤ p.accW) && decide (2 ≤ p.spb)

/-- A decimal sample lies in `-32768..32767`, a hexadecimal one in `0x0000..0xFFFF` (R76). -/
def SampleLit.wellFormed : SampleLit → Bool
  | .dec v => inInt16 v
  | .hex v => decide (v ≤ 0xFFFF)

/-- The operand check of the assembler (R76). -/
def AsmCommand.wellFormed : AsmCommand → Bool
  | .nop => true
  | .filt x => x.wellFormed
  | .demod x => x.wellFormed
  | .decode b => decide (b = 0) || decide (b = 1)
  | .urst => true
  | .sample x => x.wellFormed

/-- The operand check over a line (R76, R77). -/
def AsmLine.wellFormed : AsmLine → Bool
  | .blank => true
  | .command c _ => c.wellFormed
  | .wait _ => true

/-- The command is one of the six defined ones, not a reserved code (R70, R72). -/
def Instr.isDefined : Instr → Bool
  | .nop => true
  | .filt _ => true
  | .demod _ => true
  | .decode _ => true
  | .urst => true
  | .sample _ => true
  | .reserved110 => false
  | .reserved111 => false

end Sys2Proof
end

