-- ==== Sys2Proof/Machine/Ops.lean ====
section
/-! DEFINITION. The shared operations: the arithmetic primitives and delay-line accesses of 00_scope.md R14, the writes of
the state's registers, the invariants of 10_state.md R42, how a command completes, and the global reset. The core takes no
exception and returns from none (60_exceptions.md R151, R155, R156), so no such operation exists. -/

namespace Sys2Proof.Machine

/-! Arithmetic primitives (R14). -/

/-- `wrap_N(v)`: the N-bit two's-complement value congruent to `v` modulo `2^N` (R14). -/
def wrap (n : Nat) (v : Int) : Int := (v + 2 ^ (n - 1)) % 2 ^ n - 2 ^ (n - 1)

/-- `sat16(v)` (R14). -/
def sat16 (v : Int) : Int := min (max v (-32768)) 32767

/-- `asr(v, s) = floor(v / 2^s)` (R14). -/
def asr (v : Int) (s : Nat) : Int := v / 2 ^ s

/-! Delay-line accesses (R14, R102, R103). -/

/-- `MemRead(i, 2)`: the whole entry `i`. An index of 22 or more is outside R42 and reads 0 here; no command completes
from such a state. -/
def memRead (m : DelayLine) (i : BitVec 5) : Sample := m.getD i.toNat 0#16

/-- `MemWrite(i, 2, v)`. -/
def memWrite (m : DelayLine) (i : BitVec 5) (v : Sample) : DelayLine := m.setIfInBounds i.toNat v

/-- `(ptr + 1) mod 22` (R103). -/
def nextPtr (p : BitVec 5) : BitVec 5 := BitVec.ofNat 5 ((p.toNat + 1) % delayLen)

/-! Writes of the state's registers. -/

def State.setF0 (s : State) (F : FilterState) : State := { s with f0 := F }

def State.setDisc (s : State) (D : DiscState) : State := { s with disc := D }

def State.setUart (s : State) (U : UartState) : State := { s with uart := U }

def State.setYOut (s : State) (y : Sample) : State := { s with yOut := y }

def State.setBitOut (s : State) (b : Bool) : State := { s with bitOut := b }

def State.setByteValid (s : State) (v : Bool) : State := { s with byteValid := v }

def State.setInputs (s : State) (ps : List PortIn) : State := { s with inputs := ps }

/-- The output ports: the three output registers, and `rxc` on `byte_out` (R38 to R40). -/
def State.outputs (s : State) : Outputs := ⟨s.yOut, s.bitOut, s.byteValid, s.uart.rxc⟩

/-! The invariants (R42). -/

/-- The invariants of R42 on the UART fields. `0 <= cnt <= SPB` follows from the bound each state has. -/
def UartState.inRange (B : Build) (U : UartState) : Bool :=
  match U.st with
  | .idle => decide (U.cnt = 0) && decide (U.bitn.toNat < 8)
  | .start => decide (U.cnt < B.half) && decide (U.bitn.toNat < 8)
  | .data => decide (U.cnt < B.spb) && decide (U.bitn.toNat < 8)
  | .stop => decide (U.cnt < B.spb) && decide (U.bitn.toNat ≤ 8)

/-- The invariants of R42. -/
def State.inRange (s : State) : Bool := decide (s.disc.ptr.toNat < delayLen) && s.uart.inRange s.build

/-- Both accumulators are `n`-bit signed values (R13, R30). -/
def FilterState.fits (n : Nat) (F : FilterState) : Bool :=
  decide (-2 ^ (n - 1) ≤ F.w1) && decide (F.w1 < 2 ^ (n - 1))
    && decide (-2 ^ (n - 1) ≤ F.w2) && decide (F.w2 < 2 ^ (n - 1))

/-- Every filter register holds a value of its width `ACC_W` (R29, R30). -/
def State.registersFit (s : State) : Bool := s.f0.fits s.build.accW && s.disc.f1.fits s.build.accW

/-! Completing a cycle. -/

/-- A command, or an idle cycle, that takes `s` to `t`: every command completes (R20, R21), from every state that
meets R42; any other state is a fault (R166; notes/assumptions/7.md). -/
def complete (s t : State) : Host.Outcome State Fault Refusal :=
  if s.inRange then .next t else .fault .outsideInvariants

/-- The idle cycle (43_pipeline_control.md R144). -/
def idleCycle (s : State) : Host.Outcome State Fault Refusal := complete s (s.setByteValid false)

/-- The global reset (70_reset_and_hazards.md R167): every field to its value of R44, whatever the state was. The
build is no field (R10), and what the host presents next is the host's. -/
def resetCycle (s : State) : Host.Outcome State Fault Refusal :=
  .next ((State.resetOf s.build).setInputs s.inputs)

/-! The command port. -/

/-- What the host presents in this cycle: the next input cycle, or an idle cycle where none is left
(notes/assumptions/5.md; DESIGN CHOICE). -/
def State.presented (s : State) : PortIn := s.inputs.headD PortIn.idle

/-- The state with this cycle's input consumed. -/
def State.advance (s : State) : State := s.setInputs s.inputs.tail

/-! Builds (00_scope.md R11). -/

/-- The build of given parameters, refused by name where R9 or R11 is broken. -/
def buildOfParams (p : Params) : Except Refusal Build :=
  if p.wellFormed then
    .ok { b0 := BitVec.ofInt 16 p.b0, b1 := BitVec.ofInt 16 p.b1, b2 := BitVec.ofInt 16 p.b2,
          a1 := BitVec.ofInt 16 p.a1, a2 := BitVec.ofInt 16 p.a2,
          shiftSel := Fin.ofNat 15 (p.coefShift - 1), accExtra := p.accW - 32,
          thresh := BitVec.ofInt 16 p.thresh, spbExtra := p.spb - 2 }
  else .error .unsupportedBuild

end Sys2Proof.Machine
end

