-- ==== Sys2Proof/Machine/Filter.lean ====
section
/-! DEFINITION. The biquad kernel `BQ` (40_iir_filter.md R87 to R93) and FILT (R95). -/

namespace Sys2Proof.Machine

/-- What one kernel step gives: the output, the new accumulators, and whether `flag_rv()` was called. -/
structure KernelResult where
  y : Int
  next : FilterState
  violated : Bool
deriving DecidableEq, Repr

/-- `BQ(F, x)` line by line (R87): the output is floored and saturated (R88), the feedback uses that output (R91), the new
`w1` reads the old `w2` (R89), and each accumulator wraps (R92). -/
def bq (B : Build) (F : FilterState) (x : Int) : KernelResult :=
  let rawAcc := signedParam B.b0 * x + F.w1
  let acc := wrap B.accW rawAcc
  let ysh := asr acc B.coefShift
  let y := sat16 ysh
  let rawW1 := signedParam B.b1 * x - signedParam B.a1 * y + F.w2
  let rawW2 := signedParam B.b2 * x - signedParam B.a2 * y
  { y := y
    next := ⟨wrap B.accW rawW1, wrap B.accW rawW2⟩
    violated := differs acc rawAcc || differs y ysh || differs (wrap B.accW rawW1) rawW1
      || differs (wrap B.accW rawW2) rawW2 }

/-- The writes of FILT (R95). -/
def filtWrites (r : KernelResult) (s : State) : State :=
  (((flagRv r.violated s).setF0 r.next).setYOut (toSample r.y)).setByteValid false

/-- FILT: one step of the standalone filter `F0` (R95). -/
def execFilt (x : Sample) (s : State) : Host.Outcome State Fault Refusal :=
  complete s (filtWrites (bq s.build s.f0 (sampleOperand x)) s)

end Sys2Proof.Machine
end

