-- ==== Sys2Proof/Machine/Discriminator.lean ====
section
/-! DEFINITION. The discriminator step `FSK` (41_fsk_discriminator.md R101 to R108) and DEMOD (R109). -/

namespace Sys2Proof.Machine

/-- What one discriminator step gives: the bit, the new discriminator, and whether `flag_rv()` was called. -/
structure FskResult where
  bit : Bool
  next : DiscState
  violated : Bool
deriving DecidableEq, Repr

/-- The decision: strictly above the threshold, with no memory (R108). -/
def above (yf thresh : Int) : Bool := decide (yf > thresh)

/-- The product of the new sample with the delayed one, brought back to Q15 by a floored shift, before it is clamped: `ush`
of R101 (R105, R106). -/
def shiftedProduct (D : DiscState) (x : Sample) : Int :=
  asr (sampleOperand x * sampleOperand (memRead D.dl D.ptr)) prodShift

/-- The clamp changes the product, which calls `flag_rv()` (R106). -/
def productClamps (D : DiscState) (x : Sample) : Bool := differs (sat16 (shiftedProduct D x)) (shiftedProduct D x)

/-- The kernel step of `F1` on the clamped product (R107). -/
def fskKernel (B : Build) (D : DiscState) (x : Sample) : KernelResult := bq B D.f1 (sat16 (shiftedProduct D x))

/-- `FSK(x)` (R101): the oldest sample is read before the new one replaces it (R102), `F1` filters the product (R106,
R107), and the decision is strict (R108). -/
def fsk (B : Build) (D : DiscState) (x : Sample) : FskResult :=
  let k := fskKernel B D x
  { bit := above k.y (signedParam B.thresh)
    next := ⟨k.next, memWrite D.dl D.ptr x, nextPtr D.ptr⟩
    violated := productClamps D x || k.violated }

/-- The writes of a discriminator step and of `bit_out` (R109, R141). -/
def fskWrites (r : FskResult) (s : State) : State :=
  ((flagRv r.violated s).setDisc r.next).setBitOut r.bit

/-- DEMOD: one discriminator step, with no UART step (R109). -/
def execDemod (x : Sample) (s : State) : Host.Outcome State Fault Refusal :=
  complete s ((fskWrites (fsk s.build s.disc x) s).setByteValid false)

end Sys2Proof.Machine
end

