-- ==== Sys2Proof/Machine/Uart.lean ====
section
/-! DEFINITION. The UART step (42_uart_sampler.md R116 to R130), DECODE (R134) and URST (R136). -/

namespace Sys2Proof.Machine

/-- What one UART call gives: the new registers, and whether it completed a character. -/
structure UartResult where
  next : UartState
  valid : Bool
deriving DecidableEq, Repr

/-- `{b, acc[7:1]}`: the new bit enters at bit 7 (R124). -/
def shiftIn (b : Bool) (acc : Byte) : Byte := BitVec.ofBool b ++ acc.extractLsb' 1 7

/-- An IDLE call: a falling edge starts a frame (R118). -/
def uartIdle (U : UartState) (b : Bool) : UartState :=
  if U.last = true ∧ b = false then { U with st := .start, cnt := 0 } else U

/-- A START call: the midpoint check of the start bit (R122). -/
def uartStart (B : Build) (U : UartState) (b : Bool) : UartState :=
  if U.cnt + 1 = B.half then
    if b = false then { U with st := .data, cnt := 0, bitn := 0#4, acc := 0x00#8 }
    else { U with st := .idle, cnt := 0 }
  else { U with cnt := U.cnt + 1 }

/-- A call of DATA or STOP on which no midpoint sample is due: an edge re-anchors (R126), any other call counts. -/
def uartBetween (B : Build) (U : UartState) (b : Bool) : UartState :=
  if b ≠ U.last then { U with cnt := B.spb - B.half } else { U with cnt := U.cnt + 1 }

/-- A DATA call: a due sample wins over an edge (R123, R125, R127). -/
def uartData (B : Build) (U : UartState) (b : Bool) : UartState :=
  if U.cnt + 1 = B.spb then
    { U with
      acc := shiftIn b U.acc
      bitn := U.bitn + 1#4
      cnt := 0
      st := if U.bitn + 1#4 = 8#4 then .stop else .data }
  else uartBetween B U b

/-- A STOP call: the stop-bit sample ends the frame, with a character if it is 1 (R128 to R130). -/
def uartStop (B : Build) (U : UartState) (b : Bool) : UartState :=
  if U.cnt + 1 = B.spb then
    { U with rxc := if b = true then U.acc else U.rxc, st := .idle, cnt := 0, bitn := 0#4 }
  else uartBetween B U b

/-- The state-dependent part of a UART call (R117). -/
def uartAdvance (B : Build) (U : UartState) (b : Bool) : UartState :=
  match U.st with
  | .idle => uartIdle U b
  | .start => uartStart B U b
  | .data => uartData B U b
  | .stop => uartStop B U b

/-- The call completes a character: the stop-bit sample, and it is 1 (R129). -/
def uartCompletes (B : Build) (U : UartState) (b : Bool) : Bool :=
  decide (U.st = .stop) && decide (U.cnt + 1 = B.spb) && b

/-- `UART(b)` (R117): the state's own part, then `last <- b`. -/
def uart (B : Build) (U : UartState) (b : Bool) : UartResult :=
  { next := { uartAdvance B U b with last := b }, valid := uartCompletes B U b }

/-- The writes of a UART call and of `byte_valid` (R134, R141). -/
def uartWrites (r : UartResult) (s : State) : State := (s.setUart r.next).setByteValid r.valid

/-- DECODE: one UART step on a bit of the host's (R134). -/
def execDecode (b : Bool) (s : State) : Host.Outcome State Fault Refusal :=
  complete s (uartWrites (uart s.build s.uart b) s)

/-- URST: the UART fields to their reset values, and nothing else (R136, R45). -/
def execUrst (s : State) : Host.Outcome State Fault Refusal :=
  complete s ((s.setUart UartState.initial).setByteValid false)

end Sys2Proof.Machine
end

