-- ==== Sys2Proof/Machine/Pipeline.lean ====
section
/-! DEFINITION. SAMPLE, NOP and the reserved codes (43_pipeline_control.md R141 to R145). -/

namespace Sys2Proof.Machine

/-- SAMPLE: the discriminator, then the UART on the bit just produced (R141). -/
def execSample (x : Sample) (s : State) : Host.Outcome State Fault Refusal :=
  complete s (uartWrites (uart s.build s.uart (fsk s.build s.disc x).bit) (fskWrites (fsk s.build s.disc x) s))

/-- NOP: `byte_valid` goes to 0 (R143). -/
def execNop (s : State) : Host.Outcome State Fault Refusal := complete s (s.setByteValid false)

/-- The reserved code `0b110`: the hardware's effect, the same as NOP (R72, R145). A cycle of the model refuses the code
before it gets here (`perform`; notes/assumptions/6.md). -/
def execReserved110 (s : State) : Host.Outcome State Fault Refusal := complete s (s.setByteValid false)

/-- The reserved code `0b111`: the hardware's effect, the same as NOP (R72, R145). A cycle of the model refuses the code
before it gets here (`perform`; notes/assumptions/6.md). -/
def execReserved111 (s : State) : Host.Outcome State Fault Refusal := complete s (s.setByteValid false)

end Sys2Proof.Machine
end

