-- ==== Sys2Proof/Machine/Dispatch.lean ====
section
/-! DEFINITION. One arm per command, each a direct call of its meaning. -/

namespace Sys2Proof.Machine

def exec (i : Instr) (s : State) : Host.Outcome State Fault Refusal :=
  match i with
  | .nop => Sys2Proof.Machine.execNop s
  | .filt x => Sys2Proof.Machine.execFilt x s
  | .demod x => Sys2Proof.Machine.execDemod x s
  | .decode b => Sys2Proof.Machine.execDecode b s
  | .urst => Sys2Proof.Machine.execUrst s
  | .sample x => Sys2Proof.Machine.execSample x s
  | .reserved110 => Sys2Proof.Machine.execReserved110 s
  | .reserved111 => Sys2Proof.Machine.execReserved111 s

end Sys2Proof.Machine
end

