-- ==== Sys2Proof/Machine/Cycle.lean ====
section
/-! DEFINITION. One clock cycle of the core on given input ports (30_encoding.md R78, 43_pipeline_control.md R150). -/

namespace Sys2Proof.Machine

/-- An accepted command (R150): a defined one is executed. A reserved code is refused, as R145 and R150 ask of a model,
whatever the state; what the hardware does on it is `exec` (notes/assumptions/6.md). -/
def perform (i : Instr) (s : State) : Host.Outcome State Fault Refusal :=
  if i.isDefined then exec i s else .refused (.reservedCommand (opcodeOf i))

/-- `cycle(rst, cmd_valid, W)` (R150), in the priority order of R78. -/
def cycle (p : PortIn) (s : State) : Host.Outcome State Fault Refusal :=
  if p.rst then resetCycle s
  else if p.cmdValid then perform (decode p.word) s
  else idleCycle s

end Sys2Proof.Machine
end

