-- ==== Sys2Proof/Machine/Step.lean ====
section
/-! DEFINITION. One step is one clock cycle: the host's next input cycle is consumed and performed (30_encoding.md R78). -/

namespace Sys2Proof.Machine

/-- One clock cycle (R78, R150). -/
def step (s : State) : Host.Outcome State Fault Refusal := cycle s.presented s.advance

/-- `s` with the command word `w`, cut to `nbits` bits and to the port's 19 wires, presented in the very next cycle,
before whatever the host was to present (notes/assumptions/4.md). -/
def State.withFetchWord (s : State) (nbits w : Nat) : State :=
  s.setInputs (PortIn.command (BitVec.ofNat 19 (w % 2 ^ nbits)) :: s.inputs)

end Sys2Proof.Machine
end

