-- ==== Sys2Proof/Machine/Assembler.lean ====
section
/-! DEFINITION. The spec's assembler, from text to the input cycles it drives (30_encoding.md R75 to R77). -/

namespace Sys2Proof.Machine

/-- Why a line does not assemble. -/
inductive AsmError where
  /-- an operand outside the range of R76. -/
  | operandRange
  /-- the first word of a line is no mnemonic of R75 and no `WAIT`. -/
  | unknownMnemonic
  /-- an operand or a count that is no number of R75. -/
  | badNumber
  /-- words missing or left over. -/
  | badLine
deriving DecidableEq, Repr

/-! Encoding (R76). -/

/-- `(sample mod 2^16)[15:0]` (R76). -/
def sampleBits : SampleLit → BitVec 16
  | .dec v => BitVec.ofInt 16 v
  | .hex v => BitVec.ofNat 16 v

/-- The instruction a command stands for, its operand taken as it is. -/
def AsmCommand.instr : AsmCommand → Instr
  | .nop => .nop
  | .filt x => .filt (sampleBits x)
  | .demod x => .demod (sampleBits x)
  | .decode b => .decode (decide (b = 1))
  | .urst => .urst
  | .sample x => .sample (sampleBits x)

/-- The word of a command, or an assembly error (R76). -/
def assemble (c : AsmCommand) : Except AsmError CmdWord :=
  if c.wellFormed then .ok (encode (AsmCommand.instr c)) else .error .operandRange

/-- The input cycles of a line: copies on consecutive cycles, or idle cycles (R77). -/
def expandLine : AsmLine → Except AsmError (List PortIn)
  | .blank => .ok []
  | .command c n =>
    match assemble c with
    | .ok w => .ok (List.replicate n (PortIn.command w))
    | .error e => .error e
  | .wait n => .ok (List.replicate n PortIn.idle)

/-- The input cycles of a program, line after line; the first error stops it. -/
def expandProgram : List AsmLine → Except AsmError (List PortIn)
  | [] => .ok []
  | l :: ls =>
    match expandLine l, expandProgram ls with
    | .ok ps, .ok qs => .ok (ps ++ qs)
    | .error e, _ => .error e
    | .ok _, .error e => .error e

/-! Text (R75; what R75 leaves open is in notes/assumptions/14.md, DESIGN CHOICE). -/

/-- The line without its comment. -/
def dropComment (cs : List Char) : List Char := cs.takeWhile (fun c => c ≠ ';')

/-- A word being read is put before the words after it. -/
def closeWord (cur : List Char) (ws : List (List Char)) : List (List Char) :=
  match cur with
  | [] => ws
  | _ => cur :: ws

/-- The words of a line; blanks separate them and `*` is a word of its own. `splitWords` carries the word in progress. -/
def splitWords : List Char → List Char → List (List Char)
  | cur, [] => closeWord cur []
  | cur, c :: cs =>
    if c = ' ' ∨ c = '\t' ∨ c = '\r' then closeWord cur (splitWords [] cs)
    else if c = '*' then closeWord cur (['*'] :: splitWords [] cs)
    else splitWords (cur ++ [c]) cs

/-- The value of a digit character in a base of at most 16. -/
def digitValue (base : Nat) (c : Char) : Option Nat :=
  let v := if '0' ≤ c ∧ c ≤ '9' then c.toNat - '0'.toNat
    else if 'A' ≤ c ∧ c ≤ 'F' then c.toNat - 'A'.toNat + 10
    else if 'a' ≤ c ∧ c ≤ 'f' then c.toNat - 'a'.toNat + 10
    else base
  if v < base then some v else none

/-- The number the digits write after `n`. -/
def readDigits (base : Nat) : Nat → List Char → Option Nat
  | n, [] => some n
  | n, c :: cs =>
    match digitValue base c with
    | some d => readDigits base (n * base + d) cs
    | none => none

/-- An unsigned decimal number: at least one digit. -/
def readNat (cs : List Char) : Option Nat :=
  match cs with
  | [] => none
  | _ => readDigits 10 0 cs

/-- A decimal integer, a minus sign before a negative one. -/
def readInt (cs : List Char) : Option Int :=
  match cs with
  | '-' :: ds => (readNat ds).map fun n => -(n : Int)
  | _ => (readNat cs).map fun n => (n : Int)

/-- A sample operand: `0xHHHH` or a decimal integer (R75). -/
def readSample (cs : List Char) : Option SampleLit :=
  match cs with
  | '0' :: 'x' :: [] => none
  | '0' :: 'x' :: ds => (readDigits 16 0 ds).map .hex
  | _ => (readInt cs).map .dec

/-- The optional `* n` at the end of a command (R77). -/
def readCopies (ws : List (List Char)) : Except AsmError Nat :=
  match ws with
  | [] => .ok 1
  | [['*'], n] =>
    match readNat n with
    | some k => .ok k
    | none => .error .badNumber
  | _ => .error .badLine

/-- A command with no operand, and its copies. -/
def plainLine (c : AsmCommand) (ws : List (List Char)) : Except AsmError AsmLine :=
  match readCopies ws with
  | .ok n => .ok (.command c n)
  | .error e => .error e

/-- A command with a sample operand, and its copies. -/
def sampleLine (f : SampleLit → AsmCommand) (ws : List (List Char)) : Except AsmError AsmLine :=
  match ws with
  | x :: rest =>
    match readSample x with
    | some v => plainLine (f v) rest
    | none => .error .badNumber
  | [] => .error .badLine

/-- DECODE with its bit operand, and its copies. -/
def bitLine (ws : List (List Char)) : Except AsmError AsmLine :=
  match ws with
  | x :: rest =>
    match readInt x with
    | some v => plainLine (.decode v) rest
    | none => .error .badNumber
  | [] => .error .badLine

/-- `WAIT n` (R77). -/
def waitLine (ws : List (List Char)) : Except AsmError AsmLine :=
  match ws with
  | [n] =>
    match readNat n with
    | some k => .ok (.wait k)
    | none => .error .badNumber
  | _ => .error .badLine

/-- One line of text (R75, R77). -/
def parseLine (cs : List Char) : Except AsmError AsmLine :=
  match splitWords [] (dropComment cs) with
  | [] => .ok .blank
  | m :: ws =>
    if m = ['N', 'O', 'P'] then plainLine .nop ws
    else if m = ['F', 'I', 'L', 'T'] then sampleLine .filt ws
    else if m = ['D', 'E', 'M', 'O', 'D'] then sampleLine .demod ws
    else if m = ['D', 'E', 'C', 'O', 'D', 'E'] then bitLine ws
    else if m = ['U', 'R', 'S', 'T'] then plainLine .urst ws
    else if m = ['S', 'A', 'M', 'P', 'L', 'E'] then sampleLine .sample ws
    else if m = ['W', 'A', 'I', 'T'] then waitLine ws
    else .error .unknownMnemonic

/-- The lines of a text; `splitLines` carries the line in progress. -/
def splitLines : List Char → List Char → List (List Char)
  | cur, [] => [cur]
  | cur, c :: cs => if c = '\n' then cur :: splitLines [] cs else splitLines (cur ++ [c]) cs

/-- Every line parsed; the first error stops it. -/
def parseLines : List (List Char) → Except AsmError (List AsmLine)
  | [] => .ok []
  | l :: ls =>
    match parseLine l, parseLines ls with
    | .ok a, .ok as => .ok (a :: as)
    | .error e, _ => .error e
    | .ok _, .error e => .error e

/-- A program text to the input cycles it drives, or the first error in it. -/
def assembleText (cs : List Char) : Except AsmError (List PortIn) :=
  match parseLines (splitLines [] cs) with
  | .ok ls => expandProgram ls
  | .error e => .error e

end Sys2Proof.Machine
end

