-- ==== Sys2Proof/Safety.lean ====
section
/-! DEFINITION. What claims about runs are stated with: legal states, runs of commands and of cycles, the observation of a
run (00_scope.md R20), the safe-input premise (40_iir_filter.md R98), and the run-level refusal of reserved codes (R145). -/

namespace Sys2Proof.Safety

open Sys2Proof.Machine

/-- A legal state: the invariants of 10_state.md R42, and every filter register within its width (R30). -/
def Legal (s : State) : Prop := s.inRange = true ∧ s.registersFit = true

/-- The commands of a list, one after another (R19, R59); it stops at the first fault, and at the first reserved code. -/
def execAll : List Instr → State → Host.Outcome State Fault Refusal
  | [], s => .next s
  | i :: is, s =>
    match perform i s with
    | .next t => execAll is t
    | .fault f => .fault f
    | .refused r => .refused r

/-- `n` clock cycles (R20); it stops at the first fault or refusal. -/
def runCycles : Nat → State → Host.Outcome State Fault Refusal
  | 0, s => .next s
  | n + 1, s =>
    match step s with
    | .next t => runCycles n t
    | .fault f => .fault f
    | .refused r => .refused r

/-- The output values after each of `k` cycles (R20); it ends where a cycle does not complete. -/
def trace : Nat → State → List Outputs
  | 0, _ => []
  | k + 1, s =>
    match step s with
    | .next t => t.outputs :: trace k t
    | .fault _ => []
    | .refused _ => []

/-- Nothing stored since `rst` differed from its exact value, neither in a kernel step nor in a product conversion: the
premise R47 asks of a claim that depends on filter values. -/
def NoViolation (s : State) : Prop := s.rangeViolation = false

/-- The `BQ` step of a command calls `flag_rv()` (R93). Only FILT, DEMOD and SAMPLE have a `BQ` step. -/
def kernelFlags : Instr → State → Bool
  | .nop, _ => false
  | .filt x, s => (bq s.build s.f0 (sampleOperand x)).violated
  | .demod x, s => (fskKernel s.build s.disc x).violated
  | .decode _, _ => false
  | .urst, _ => false
  | .sample x, s => (fskKernel s.build s.disc x).violated
  | .reserved110, _ => false
  | .reserved111, _ => false

/-- The product conversion of a command calls `flag_rv()`, outside any `BQ` step (R106). -/
def productFlags : Instr → State → Bool
  | .nop, _ => false
  | .filt _, _ => false
  | .demod x, s => productClamps s.disc x
  | .decode _, _ => false
  | .urst, _ => false
  | .sample x, s => productClamps s.disc x
  | .reserved110, _ => false
  | .reserved111, _ => false

/-- In one of the next `n` cycles a command is accepted that meets `f` in the state it is accepted in. -/
def someCommand (f : Instr → State → Bool) : Nat → State → Bool
  | 0, _ => false
  | n + 1, s =>
    (!s.presented.rst && s.presented.cmdValid && f (decode s.presented.word) s)
      || match step s with
         | .next t => someCommand f n t
         | .fault _ => false
         | .refused _ => false

/-- A run of `n` cycles keeps signal levels within the filter's safe input range: no `BQ` step in it calls `flag_rv()`
(40_iir_filter.md R98). A clamped product is no `BQ` step. -/
def SafeRange (n : Nat) (s : State) : Prop := someCommand kernelFlags n s = false

/-- The reserved code an input cycle presents, if it presents one (R72). -/
def reservedIn (p : PortIn) : Option (BitVec 3) :=
  if p.rst = false ∧ p.cmdValid = true ∧ (decode p.word).isDefined = false then some p.cmdOp else none

/-- The sequence of input cycles, or the refusal R145 asks of a model for a sequence that holds a reserved code: it names
the first. A run of the sequence is refused with the same name, in the cycle that accepts the code (`perform`). -/
def screenSequence : List PortIn → Except Refusal (List PortIn)
  | [] => .ok []
  | p :: ps =>
    match reservedIn p with
    | some op => .error (.reservedCommand op)
    | none =>
      match screenSequence ps with
      | .ok qs => .ok (p :: qs)
      | .error r => .error r

/-! What statements about the filter, the delay line and the serial line are written with. -/

/-- `v` is an `ACC_W`-bit signed value (R13, R30). -/
def FitsAcc (B : Build) (v : Int) : Prop := -2 ^ (B.accW - 1) ≤ v ∧ v < 2 ^ (B.accW - 1)

/-- The three conditions under which a kernel step violates its range (R93): the accumulator wraps, the output
saturates, or a state wraps. -/
def KernelViolates (B : Build) (F : FilterState) (x : Int) : Prop :=
  ¬ FitsAcc B (B.b0.toInt * x + F.w1)
  ∨ ¬ (-32768 ≤ asr (wrap B.accW (B.b0.toInt * x + F.w1)) B.coefShift
        ∧ asr (wrap B.accW (B.b0.toInt * x + F.w1)) B.coefShift ≤ 32767)
  ∨ ¬ FitsAcc B (B.b1.toInt * x - B.a1.toInt * (bq B F x).y + F.w2)
  ∨ ¬ FitsAcc B (B.b2.toInt * x - B.a2.toInt * (bq B F x).y)

/-- A call with input bit `b` completes a character: it is the stop-bit sample, and it is 1 (R129). -/
def Completes (B : Build) (U : UartState) (b : Bool) : Prop :=
  U.st = .stop ∧ U.cnt + 1 = B.spb ∧ b = true

/-- The samples a sequence of commands gives the discriminator: those of DEMOD and SAMPLE (R104). -/
def samplesOf : List Instr → List Sample
  | [] => []
  | .demod x :: is => x :: samplesOf is
  | .sample x :: is => x :: samplesOf is
  | .nop :: is => samplesOf is
  | .filt _ :: is => samplesOf is
  | .decode _ :: is => samplesOf is
  | .urst :: is => samplesOf is
  | .reserved110 :: is => samplesOf is
  | .reserved111 :: is => samplesOf is

/-- The entry `k` places after `ptr`, around the ring: the `k`-th oldest sample, the oldest counted as 0 (R33, R103). -/
def nthOldest (D : DiscState) (k : Nat) : Sample := memRead D.dl (BitVec.ofNat 5 ((D.ptr.toNat + k) % delayLen))

/-- The input cycle accepts a reserved code (R72). -/
def AcceptsReserved (p : PortIn) : Prop :=
  p.rst = false ∧ p.cmdValid = true ∧ (p.cmdOp = 0b110#3 ∨ p.cmdOp = 0b111#3)

/-- The bits of an 8N1 frame of `v`: start 0, eight data bits least significant first, stop 1 (R115). -/
def frameBits (v : Byte) : List Bool :=
  [false, v.getLsbD 0, v.getLsbD 1, v.getLsbD 2, v.getLsbD 3, v.getLsbD 4, v.getLsbD 5, v.getLsbD 6, v.getLsbD 7, true]

/-- A line that holds each bit for `n` calls (R132). -/
def heldFor (n : Nat) : List Bool → List Bool
  | [] => []
  | b :: bs => List.replicate n b ++ heldFor n bs

/-- `n` input bits, each different from the one before it, the first different from `b` (R139). -/
def toggles : Bool → Nat → List Bool
  | _, 0 => []
  | b, n + 1 => (!b) :: toggles (!b) n

/-- The same state in a build whose accumulators are `n` bits wider. -/
def widen (n : Nat) (s : State) : State := { s with build := { s.build with accExtra := s.build.accExtra + n } }

end Sys2Proof.Safety
end

