-- ==== Sys2Proof/Certificates/Slice0/Obligations.lean ====
section
/-! DEFINITION. The statements for the provers, in the order of OBLIGATIONS.json. -/

open Sys2Proof
open Sys2Proof.Machine
open Sys2Proof.Safety

/-! Encoding and the assembler. -/

/-- Decoding an encoded command gives it back, and encoding a decoded word keeps its `op` (R66 to R74). The words of the
reserved codes are the model's (notes/assumptions/13.md). -/
def Obligations.DecodeAndEncodeAgree : Prop :=
  (∀ i : Instr, decode (encode i) = i) ∧
  (∀ w : CmdWord, (encode (decode w)).extractLsb' 16 3 = w.extractLsb' 16 3)

/-- The opcode map (R70): `op` alone selects the command, `data` gives the operand. -/
def Obligations.OpcodeMapSelectsByOpAlone : Prop :=
  ∀ data : BitVec 16,
    decode (0b000#3 ++ data) = .nop ∧
    decode (0b001#3 ++ data) = .filt data ∧
    decode (0b010#3 ++ data) = .demod data ∧
    decode (0b011#3 ++ data) = .decode (data.getLsbD 0) ∧
    decode (0b100#3 ++ data) = .urst ∧
    decode (0b101#3 ++ data) = .sample data ∧
    decode (0b110#3 ++ data) = .reserved110 ∧
    decode (0b111#3 ++ data) = .reserved111

/-- Ignored operand bits (R69): DECODE reads bit 0 alone, NOP and URST read nothing, and the assembler writes the ignored
bits as 0. -/
def Obligations.IgnoredOperandBitsChangeNothing : Prop :=
  (∀ (w v : CmdWord) (s : State), w.extractLsb' 16 3 = v.extractLsb' 16 3 →
    (w.extractLsb' 16 3 = 0b011#3 → w.getLsbD 0 = v.getLsbD 0 →
      decode w = .decode (w.getLsbD 0) ∧ exec (decode w) s = exec (decode v) s) ∧
    (w.extractLsb' 16 3 = 0b000#3 ∨ w.extractLsb' 16 3 = 0b100#3 → exec (decode w) s = exec (decode v) s)) ∧
  (∀ (b : Int) (w : CmdWord), assemble (.decode b) = .ok w → w.extractLsb' 1 15 = 0#15) ∧
  (∀ w : CmdWord, assemble .nop = .ok w ∨ assemble .urst = .ok w → w.extractLsb' 0 16 = 0#16)

/-- The sample operand (R68): the 16 data bits read as a two's-complement number, unscaled. -/
def Obligations.SampleOperandIsTwosComplement : Prop :=
  ∀ w : CmdWord, ∃ x : Sample,
    (w.extractLsb' 16 3 = 0b001#3 → decode w = .filt x) ∧
    (w.extractLsb' 16 3 = 0b010#3 → decode w = .demod x) ∧
    (w.extractLsb' 16 3 = 0b101#3 → decode w = .sample x) ∧
    sampleOperand x = (if w.getLsbD 15 then (w.toNat % 65536 : Int) - 65536 else (w.toNat % 65536 : Int)) ∧
    -32768 ≤ sampleOperand x ∧ sampleOperand x ≤ 32767

/-- Words the spec writes out (R95, R109, R134, R136, R141, R143 and the vectors of 95_test_vectors.md). -/
def Obligations.WordsOfTheSpecDecode : Prop :=
  decode 0x00000#19 = .nop ∧ decode 0x14000#19 = .filt 16384#16 ∧ decode 0x1BFFF#19 = .filt (BitVec.ofInt 16 (-16385)) ∧
  decode 0x24000#19 = .demod 16384#16 ∧ decode 0x30000#19 = .decode false ∧ decode 0x30001#19 = .decode true ∧
  decode 0x3FFFE#19 = .decode false ∧ decode 0x40000#19 = .urst ∧ decode 0x58000#19 = .sample (BitVec.ofInt 16 (-32768)) ∧
  decode 0x6ABCD#19 = .reserved110 ∧ decode 0x7FFFF#19 = .reserved111

/-- The assembler's encoding and its errors (R76). -/
def Obligations.AssemblerEncodesAndRejects : Prop :=
  (∀ v : Int, -32768 ≤ v ∧ v ≤ 32767 →
    assemble (.filt (.dec v)) = .ok (0b001#3 ++ BitVec.ofInt 16 v) ∧
    assemble (.demod (.dec v)) = .ok (0b010#3 ++ BitVec.ofInt 16 v) ∧
    assemble (.sample (.dec v)) = .ok (0b101#3 ++ BitVec.ofInt 16 v)) ∧
  (∀ v : Int, ¬ (-32768 ≤ v ∧ v ≤ 32767) →
    assemble (.filt (.dec v)) = .error .operandRange ∧
    assemble (.demod (.dec v)) = .error .operandRange ∧
    assemble (.sample (.dec v)) = .error .operandRange) ∧
  (∀ h : Nat, h ≤ 0xFFFF →
    assemble (.filt (.hex h)) = .ok (0b001#3 ++ BitVec.ofNat 16 h) ∧
    assemble (.demod (.hex h)) = .ok (0b010#3 ++ BitVec.ofNat 16 h) ∧
    assemble (.sample (.hex h)) = .ok (0b101#3 ++ BitVec.ofNat 16 h)) ∧
  (∀ h : Nat, 0xFFFF < h →
    assemble (.filt (.hex h)) = .error .operandRange ∧
    assemble (.demod (.hex h)) = .error .operandRange ∧
    assemble (.sample (.hex h)) = .error .operandRange) ∧
  assemble (.decode 0) = .ok (0b011#3 ++ (0#15 ++ 0#1)) ∧
  assemble (.decode 1) = .ok (0b011#3 ++ (0#15 ++ 1#1)) ∧
  (∀ b : Int, b ≠ 0 → b ≠ 1 → assemble (.decode b) = .error .operandRange) ∧
  assemble .nop = .ok (0b000#3 ++ 0#16) ∧
  assemble .urst = .ok (0b100#3 ++ 0#16) ∧
  (∀ (c : AsmCommand) (w : CmdWord), assemble c = .ok w →
    w.extractLsb' 16 3 ≠ 0b110#3 ∧ w.extractLsb' 16 3 ≠ 0b111#3)

/-- The pseudo-instructions (R77): `WAIT n` is `n` idle cycles, `<command> * n` is `n` copies on consecutive cycles. -/
def Obligations.PseudoInstructionsExpand : Prop :=
  (∀ n : Nat, ∃ p : PortIn, p.rst = false ∧ p.cmdValid = false ∧ expandLine (.wait n) = .ok (List.replicate n p)) ∧
  (∀ (c : AsmCommand) (w : CmdWord) (n : Nat), assemble c = .ok w →
    ∃ p : PortIn, p.rst = false ∧ p.cmdValid = true ∧ p.word = w ∧
      expandLine (.command c n) = .ok (List.replicate n p)) ∧
  (∃ p : PortIn, p.word = 0x30001#19 ∧ expandLine (.command (.decode 1) 3) = .ok [p, p, p])

/-! One cycle. -/

/-- A step runs the decoded command: where the host presents a command word in a cycle without reset, the step is that
command's execution, with this cycle's input consumed; for a reserved code it is the refusal of R150. -/
def Obligations.StepRunsTheDecodedCommand : Prop :=
  ∀ (s : State) (p : PortIn) (rest : List PortIn),
    s.inputs = p :: rest → p.rst = false → p.cmdValid = true →
      ((decode p.word).isDefined = true → step s = exec (decode p.word) (s.setInputs rest)) ∧
      ((decode p.word).isDefined = false → step s = .refused (.reservedCommand p.cmdOp))

/-- A word placed as the next command is the command the next step runs, or refuses where it is a reserved code. -/
def Obligations.PlacedWordRunsNext : Prop :=
  ∀ (s : State) (nbits w : Nat) (i : Instr), decodeTableWord nbits w = some i →
    (i.isDefined = true → step (s.withFetchWord nbits w) = exec i s) ∧
    (i.isDefined = false → step (s.withFetchWord nbits w) = .refused (.reservedCommand (opcodeOf i)))

/-- The priority order of a cycle (R78), with the outcome R150 gives a model on a reserved code. -/
def Obligations.CyclePriorityOrder : Prop :=
  ∀ (p : PortIn) (s : State),
    (p.rst = true → cycle p s = .next ((State.resetOf s.build).setInputs s.inputs)) ∧
    (p.rst = false → p.cmdValid = true → (decode p.word).isDefined = true → cycle p s = exec (decode p.word) s) ∧
    (p.rst = false → p.cmdValid = true → (decode p.word).isDefined = false →
      cycle p s = .refused (.reservedCommand p.cmdOp)) ∧
    (p.rst = false → p.cmdValid = false → s.inRange = true → cycle p s = .next { s with byteValid := false })

/-- The idle cycle (R144). -/
def Obligations.IdleCycleClearsByteValidOnly : Prop :=
  ∀ (p : PortIn) (s : State), p.rst = false → p.cmdValid = false → s.inRange = true →
    cycle p s = .next { s with byteValid := false }

/-- A host with nothing left to present leaves the cycle idle: the model's choice (notes/assumptions/5.md). -/
def Obligations.ExhaustedHostLeavesCyclesIdle : Prop :=
  ∀ s : State, s.inputs = [] → s.inRange = true → step s = .next { s with byteValid := false }

/-- Global reset (R44): every field to its value of the table, from any state at all, whatever else the ports carry. -/
def Obligations.ResetCycleSetsEveryField : Prop :=
  ∀ (p : PortIn) (s : State), p.rst = true → ∃ t, cycle p s = .next t ∧
    t.f0.w1 = 0 ∧ t.f0.w2 = 0 ∧ t.disc.f1.w1 = 0 ∧ t.disc.f1.w2 = 0 ∧
    (∀ i : Fin 22, t.disc.dl[i] = 0#16) ∧ t.disc.ptr = 0#5 ∧
    t.uart.st = .idle ∧ t.uart.cnt = 0 ∧ t.uart.bitn = 0#4 ∧ t.uart.acc = 0x00#8 ∧ t.uart.rxc = 0x00#8 ∧
    t.uart.last = true ∧ t.yOut = 0#16 ∧ t.bitOut = false ∧ t.byteValid = false ∧ t.rangeViolation = false ∧
    t.build = s.build

/-- Reset held for one cycle or for several leaves the same state (R167), and the next cycle can carry a command. That a
reset cycle leaves the input cycles to come as they are is the model's choice (notes/assumptions/4.md). -/
def Obligations.HeldResetActsOnce : Prop :=
  ∀ (s : State) (ps rest : List PortIn), ps ≠ [] → (∀ p ∈ ps, p.rst = true) → s.inputs = ps ++ rest →
    runCycles ps.length s = .next ((State.resetOf s.build).setInputs rest) ∧
    (∀ (w : CmdWord) (more : List PortIn), rest = PortIn.command w :: more → (decode w).isDefined = true →
      ∃ t, runCycles (ps.length + 1) s = .next t ∧
        exec (decode w) ((State.resetOf s.build).setInputs more) = .next t)

/-- The machine right after reset has the values of R44, in a build whose `ACC_W` is the default of R9. -/
def Obligations.ResetStateHasTheSpecValues : Prop :=
  State.reset.f0 = ⟨0, 0⟩ ∧ State.reset.disc.f1 = ⟨0, 0⟩ ∧ (∀ i : Fin 22, State.reset.disc.dl[i] = 0#16) ∧
  State.reset.disc.ptr = 0#5 ∧ State.reset.uart = ⟨.idle, 0, 0#4, 0x00#8, 0x00#8, true⟩ ∧
  State.reset.yOut = 0#16 ∧ State.reset.bitOut = false ∧ State.reset.byteValid = false ∧
  State.reset.rangeViolation = false ∧ State.reset.outputs = ⟨0#16, false, false, 0x00#8⟩ ∧
  State.reset.build.accW = 32

/-! The commands' results. -/

/-- NOP (R143). -/
def Obligations.NopClearsByteValidOnly : Prop :=
  (∀ s : State, s.inRange = true → exec .nop s = .next { s with byteValid := false }) ∧
  (∀ w : CmdWord, w.extractLsb' 16 3 = 0b000#3 → decode w = .nop)

/-- The reserved codes (R145, R150): executed, they have the hardware's effect, that of NOP; a cycle of the model that
accepts one is refused, with the code (notes/assumptions/6.md). -/
def Obligations.ReservedCodesActAsNop : Prop :=
  (∀ s : State, s.inRange = true →
    exec .reserved110 s = .next { s with byteValid := false } ∧
    exec .reserved111 s = .next { s with byteValid := false }) ∧
  (∀ (p : PortIn) (s : State), AcceptsReserved p → cycle p s = .refused (.reservedCommand p.cmdOp))

/-- The refusal of R72 and R145 over sequences: a sequence of which no cycle accepts a reserved code is given back as it is;
any other is refused with the code of the first cycle that accepts one, and so is its run, in that cycle, from every state
of R42. -/
def Obligations.SequencesWithReservedCodesAreRefused : Prop :=
  ∀ ps : List PortIn,
    ((∀ p ∈ ps, ¬ AcceptsReserved p) → screenSequence ps = .ok ps) ∧
    (∀ (pre : List PortIn) (p : PortIn) (post : List PortIn), ps = pre ++ p :: post →
      (∀ q ∈ pre, ¬ AcceptsReserved q) → AcceptsReserved p →
        screenSequence ps = .error (.reservedCommand p.cmdOp) ∧
        ∀ (s : State) (n : Nat), s.inRange = true → s.inputs = ps →
          runCycles (pre.length + 1 + n) s = .refused (.reservedCommand p.cmdOp)) ∧
    ((∃ p ∈ ps, AcceptsReserved p) →
      ∃ p ∈ ps, AcceptsReserved p ∧ screenSequence ps = .error (.reservedCommand p.cmdOp))

/-- FILT (R95), the kernel of R87 written out on `F0`. -/
def Obligations.FiltComputesTheBiquad : Prop :=
  (∀ (s : State) (x : Sample), s.inRange = true →
    let B := s.build
    let rawAcc := B.b0.toInt * x.toInt + s.f0.w1
    let acc := wrap B.accW rawAcc
    let ysh := asr acc B.coefShift
    let y := sat16 ysh
    let rawW1 := B.b1.toInt * x.toInt - B.a1.toInt * y + s.f0.w2
    let rawW2 := B.b2.toInt * x.toInt - B.a2.toInt * y
    ∃ t, exec (.filt x) s = .next t ∧
      t.yOut.toInt = y ∧ t.f0.w1 = wrap B.accW rawW1 ∧ t.f0.w2 = wrap B.accW rawW2 ∧ t.byteValid = false ∧
      (t.rangeViolation = true ↔
        s.rangeViolation = true ∨ acc ≠ rawAcc ∨ y ≠ ysh ∨ t.f0.w1 ≠ rawW1 ∨ t.f0.w2 ≠ rawW2)) ∧
  (∀ w : CmdWord, w.extractLsb' 16 3 = 0b001#3 → decode w = .filt (w.extractLsb' 0 16))

/-- FILT inside the safe range (R85, R88 to R91, R98): where its `BQ` step does not call `flag_rv()`, as is the case where
`range_violation` is false after it, the output is the floor of the exact sum and both accumulators are the exact
recursion. -/
def Obligations.FiltIsExactWithoutViolation : Prop :=
  ∀ (s t : State) (x : Sample), exec (.filt x) s = .next t →
    t.rangeViolation = false ∨ kernelFlags (.filt x) s = false →
    t.yOut.toInt * 2 ^ s.build.coefShift ≤ s.build.b0.toInt * x.toInt + s.f0.w1 ∧
    s.build.b0.toInt * x.toInt + s.f0.w1 < (t.yOut.toInt + 1) * 2 ^ s.build.coefShift ∧
    t.f0.w1 = s.build.b1.toInt * x.toInt - s.build.a1.toInt * t.yOut.toInt + s.f0.w2 ∧
    t.f0.w2 = s.build.b2.toInt * x.toInt - s.build.a2.toInt * t.yOut.toInt

/-- Wrap-around (R92): whatever the operands, each accumulator holds the `ACC_W`-bit value congruent to the exact sum. That
every product fits 32 signed bits is the model's correction of the 31 bits R92 writes (notes/assumptions/15.md). -/
def Obligations.FiltAccumulatorsWrapToTheirWidth : Prop :=
  ∀ (s t : State) (x : Sample), exec (.filt x) s = .next t →
    FitsAcc s.build t.f0.w1 ∧ FitsAcc s.build t.f0.w2 ∧
    (2 ^ s.build.accW : Int) ∣
      t.f0.w1 - (s.build.b1.toInt * x.toInt - s.build.a1.toInt * t.yOut.toInt + s.f0.w2) ∧
    (2 ^ s.build.accW : Int) ∣ t.f0.w2 - (s.build.b2.toInt * x.toInt - s.build.a2.toInt * t.yOut.toInt) ∧
    (∀ c : Coef, -2 ^ 31 ≤ c.toInt * x.toInt ∧ c.toInt * x.toInt < 2 ^ 31 ∧
      -2 ^ 31 ≤ c.toInt * t.yOut.toInt ∧ c.toInt * t.yOut.toInt < 2 ^ 31)

/-- When a range violation is recorded (R93, and R106 for the product): by FILT exactly on a violation of the kernel on
`F0`, by DEMOD and SAMPLE exactly on a clamped product or a violation of the kernel on `F1`. -/
def Obligations.ViolationIsRecordedExactly : Prop :=
  ∀ (s t : State) (x : Sample),
    (exec (.filt x) s = .next t →
      (t.rangeViolation = true ↔ s.rangeViolation = true ∨ KernelViolates s.build s.f0 x.toInt)) ∧
    (exec (.demod x) s = .next t ∨ exec (.sample x) s = .next t →
      (t.rangeViolation = true ↔ s.rangeViolation = true
        ∨ (x = 0x8000#16 ∧ memRead s.disc.dl s.disc.ptr = 0x8000#16)
        ∨ KernelViolates s.build s.disc.f1
            (sat16 (asr (x.toInt * (memRead s.disc.dl s.disc.ptr).toInt) 15))))

/-- DEMOD (R101, R109): the four steps of the discriminator in order, read before write, strict decision. -/
def Obligations.DemodComputesTheDiscriminator : Prop :=
  ∀ (s : State) (x : Sample), s.inRange = true →
    let d := memRead s.disc.dl s.disc.ptr
    let p := x.toInt * d.toInt
    let ush := asr p 15
    let u := sat16 ush
    let k := bq s.build s.disc.f1 u
    ∃ t, exec (.demod x) s = .next t ∧
      t.disc.f1 = k.next ∧
      memRead t.disc.dl s.disc.ptr = x ∧
      (∀ j : BitVec 5, j ≠ s.disc.ptr → memRead t.disc.dl j = memRead s.disc.dl j) ∧
      t.disc.ptr.toNat = (s.disc.ptr.toNat + 1) % 22 ∧
      (t.bitOut = true ↔ s.build.thresh.toInt < k.y) ∧
      t.byteValid = false ∧
      (t.rangeViolation = true ↔ s.rangeViolation = true ∨ u ≠ ush ∨ k.violated = true)

/-- The delay-line index (R103): DEMOD and SAMPLE advance it by one modulo 22, no other command moves it. -/
def Obligations.OnlyDiscriminatorCallsMoveThePointer : Prop :=
  ∀ (i : Instr) (s t : State), exec i s = .next t →
    ((∃ x, i = .demod x ∨ i = .sample x) → t.disc.ptr.toNat = (s.disc.ptr.toNat + 1) % 22) ∧
    ((∀ x, i ≠ .demod x ∧ i ≠ .sample x) → t.disc.ptr = s.disc.ptr ∧ t.disc.dl = s.disc.dl)

/-- The delay (R104): after any defined commands from reset, the entry the next discriminator call reads is the sample given
22 discriminator calls before it, and 0 while there are fewer. -/
def Obligations.DelayedSampleIs22CallsOld : Prop :=
  ∀ (B : Build) (is : List Instr), (∀ i ∈ is, i.isDefined = true) →
    ∃ t, execAll is (State.resetOf B) = .next t ∧
      memRead t.disc.dl t.disc.ptr = (samplesOf is).reverse.getD 21 0#16

/-- The product conversion (R106): `F1` is given the product shifted right by 15 with floor and clamped; the one product
that clamps is that of the two most negative samples, it becomes 32767, and it is recorded. -/
def Obligations.OnlyTheExtremeProductClamps : Prop :=
  (∀ x d : Sample, (sat16 (asr (x.toInt * d.toInt) 15) ≠ asr (x.toInt * d.toInt) 15 ↔ x = 0x8000#16 ∧ d = 0x8000#16) ∧
    (x = 0x8000#16 → d = 0x8000#16 → sat16 (asr (x.toInt * d.toInt) 15) = 32767)) ∧
  (∀ (s t : State) (x : Sample), exec (.demod x) s = .next t ∨ exec (.sample x) s = .next t →
    t.disc.f1 = (bq s.build s.disc.f1 (sat16 (asr (x.toInt * (memRead s.disc.dl s.disc.ptr).toInt) 15))).next ∧
    (x = 0x8000#16 → memRead s.disc.dl s.disc.ptr = 0x8000#16 →
      t.rangeViolation = true ∧ t.disc.f1 = (bq s.build s.disc.f1 32767).next))

/-- Fill-up (R110, R113): while at most 22 discriminator calls have been made since reset, by DEMOD or by SAMPLE and with any
defined commands between them, `bit_out` after the first of them is the bit of `0 > THRESH` and `F1` is at rest, whatever
the samples are; and no violation is recorded but by a FILT. -/
def Obligations.FillUpIgnoresTheSamples : Prop :=
  ∀ (B : Build) (is : List Instr), (∀ i ∈ is, i.isDefined = true) → samplesOf is ≠ [] → (samplesOf is).length ≤ 22 →
    ∃ t, execAll is (State.resetOf B) = .next t ∧
      t.bitOut = decide (B.thresh.toInt < 0) ∧ t.disc.f1 = ⟨0, 0⟩ ∧
      ((∀ x, Instr.filt x ∉ is) → t.rangeViolation = false)

/-- The transition table of the UART, row by row (R116), as DECODE performs it. -/
def Obligations.UartTransitionTable : Prop :=
  ∀ (s : State) (b : Bool), s.inRange = true → ∃ t, exec (.decode b) s = .next t ∧
    (s.uart.st = .idle → s.uart.last = true → b = false →
      t.uart = { s.uart with st := .start, cnt := 0, last := b } ∧ t.byteValid = false) ∧
    (s.uart.st = .idle → ¬ (s.uart.last = true ∧ b = false) →
      t.uart = { s.uart with last := b } ∧ t.byteValid = false) ∧
    (s.uart.st = .start → s.uart.cnt + 1 = s.build.half → b = false →
      t.uart = { s.uart with st := .data, cnt := 0, bitn := 0#4, acc := 0x00#8, last := b } ∧ t.byteValid = false) ∧
    (s.uart.st = .start → s.uart.cnt + 1 = s.build.half → b = true →
      t.uart = { s.uart with st := .idle, cnt := 0, last := b } ∧ t.byteValid = false) ∧
    (s.uart.st = .start → s.uart.cnt + 1 < s.build.half →
      t.uart = { s.uart with cnt := s.uart.cnt + 1, last := b } ∧ t.byteValid = false) ∧
    (s.uart.st = .data → s.uart.cnt + 1 = s.build.spb → s.uart.bitn.toNat + 1 < 8 →
      t.uart = { s.uart with
        acc := BitVec.ofBool b ++ s.uart.acc.extractLsb' 1 7, bitn := s.uart.bitn + 1#4, cnt := 0, last := b } ∧
      t.byteValid = false) ∧
    (s.uart.st = .data → s.uart.cnt + 1 = s.build.spb → s.uart.bitn.toNat + 1 = 8 →
      t.uart = { s.uart with
        st := .stop, acc := BitVec.ofBool b ++ s.uart.acc.extractLsb' 1 7, bitn := 8#4, cnt := 0, last := b } ∧
      t.byteValid = false) ∧
    (s.uart.st = .data → s.uart.cnt + 1 < s.build.spb → b ≠ s.uart.last →
      t.uart = { s.uart with cnt := s.build.spb - s.build.half, last := b } ∧ t.byteValid = false) ∧
    (s.uart.st = .data → s.uart.cnt + 1 < s.build.spb → b = s.uart.last →
      t.uart = { s.uart with cnt := s.uart.cnt + 1, last := b } ∧ t.byteValid = false) ∧
    (s.uart.st = .stop → s.uart.cnt + 1 = s.build.spb → b = true →
      t.uart = { s.uart with st := .idle, rxc := s.uart.acc, cnt := 0, bitn := 0#4, last := b } ∧
      t.byteValid = true) ∧
    (s.uart.st = .stop → s.uart.cnt + 1 = s.build.spb → b = false →
      t.uart = { s.uart with st := .idle, cnt := 0, bitn := 0#4, last := b } ∧ t.byteValid = false) ∧
    (s.uart.st = .stop → s.uart.cnt + 1 < s.build.spb → b ≠ s.uart.last →
      t.uart = { s.uart with cnt := s.build.spb - s.build.half, last := b } ∧ t.byteValid = false) ∧
    (s.uart.st = .stop → s.uart.cnt + 1 < s.build.spb → b = s.uart.last →
      t.uart = { s.uart with cnt := s.uart.cnt + 1, last := b } ∧ t.byteValid = false)

/-- Assembly of the byte (R124): after `n` shifts the bits so far stand in the upper `n` bits, first one lowest, so after
eight the first is bit 0 and the eighth is bit 7; and no output port shows the accumulator. -/
def Obligations.ShiftsAssembleLsbFirst : Prop :=
  (∀ (b : Bool) (acc : Byte), shiftIn b acc = BitVec.ofBool b ++ acc.extractLsb' 1 7) ∧
  (∀ (bs : List Bool) (acc : Byte) (k : Nat), bs.length ≤ 8 → (hk : k < bs.length) →
    (bs.foldl (fun a b => shiftIn b a) acc).getLsbD (8 - bs.length + k) = bs[k]) ∧
  (∀ (s : State) (a : Byte), (s.setUart { s.uart with acc := a }).outputs = s.outputs)

/-- `byte_valid` (R39, R146): after every cycle that completes, it is 1 exactly if that cycle's command was a DECODE or
SAMPLE that completed a character. -/
def Obligations.ByteValidMarksCompletedCharacters : Prop :=
  ∀ (p : PortIn) (s t : State), cycle p s = .next t →
    (t.byteValid = true ↔ p.rst = false ∧ p.cmdValid = true ∧
      ((∃ b, decode p.word = .decode b ∧ Completes s.build s.uart b) ∨
       (∃ x, decode p.word = .sample x ∧ Completes s.build s.uart (fsk s.build s.disc x).bit)))

/-- The held character (R36): in a cycle without reset it changes only by URST, or by a completing call, which stores the
byte assembled and shows it with `byte_valid`. -/
def Obligations.HeldCharacterChangesOnlyOnCompletion : Prop :=
  ∀ (p : PortIn) (s t : State), cycle p s = .next t → p.rst = false →
    (t.byteValid = true → t.outputs.byteOut = s.uart.acc) ∧
    (t.uart.rxc ≠ s.uart.rxc → (p.cmdValid = true ∧ decode p.word = .urst ∧ t.uart.rxc = 0x00#8) ∨ t.byteValid = true)

/-- URST (R136): the UART fields and `byte_valid`, nothing else, and twice is once. -/
def Obligations.UrstResetsTheUartOnly : Prop :=
  (∀ s : State, s.inRange = true →
    exec .urst s = .next { s with uart := ⟨.idle, 0, 0#4, 0x00#8, 0x00#8, true⟩, byteValid := false } ∧
    execAll [.urst, .urst] s = exec .urst s) ∧
  (∀ w : CmdWord, w.extractLsb' 16 3 = 0b100#3 → decode w = .urst)

/-- SAMPLE (R141): the discriminator, then the UART on the bit of this same sample. -/
def Obligations.SampleRunsDiscriminatorThenUart : Prop :=
  (∀ (s : State) (x : Sample), s.inRange = true →
    let r := fsk s.build s.disc x
    let u := uart s.build s.uart r.bit
    exec (.sample x) s = .next { s with
      disc := r.next, uart := u.next, bitOut := r.bit, byteValid := u.valid,
      rangeViolation := s.rangeViolation || r.violated }) ∧
  (∀ w : CmdWord, w.extractLsb' 16 3 = 0b101#3 → decode w = .sample (w.extractLsb' 0 16))

/-- SAMPLE is DEMOD followed by DECODE of the bit DEMOD produced, with `byte_valid` 0 between them (R142). -/
def Obligations.SampleEqualsDemodThenDecode : Prop :=
  ∀ (s : State) (x : Sample), s.inRange = true → ∃ m t,
    exec (.demod x) s = .next m ∧ m.byteValid = false ∧
    exec (.decode m.bitOut) m = .next t ∧ exec (.sample x) s = .next t

/-! Frames and independence. -/

/-- What each command leaves as it was (R41). Model-only beside it: the build and the input cycles never change by a
command, and `range_violation` changes only by the commands with a filter. -/
def Obligations.CommandsWriteOnlyTheirFields : Prop :=
  ∀ (i : Instr) (s t : State), exec i s = .next t → t.build = s.build ∧ t.inputs = s.inputs ∧
    match i with
    | .nop => t = { s with byteValid := false }
    | .filt _ => t = { s with
        f0 := t.f0, yOut := t.yOut, byteValid := false, rangeViolation := t.rangeViolation }
    | .demod _ => t = { s with
        disc := t.disc, bitOut := t.bitOut, byteValid := false, rangeViolation := t.rangeViolation }
    | .decode _ => t = { s with uart := t.uart, byteValid := t.byteValid }
    | .urst => t = { s with uart := t.uart, byteValid := false }
    | .sample _ => t = { s with
        disc := t.disc, bitOut := t.bitOut, uart := t.uart, byteValid := t.byteValid,
        rangeViolation := t.rangeViolation }
    | .reserved110 => t = { s with byteValid := false }
    | .reserved111 => t = { s with byteValid := false }

/-- The memory frame (R102, R148): DEMOD and SAMPLE store the sample at `DL[ptr]`, as it was before the command, and leave
every other entry; every other command leaves every entry. Of the reserved codes this speaks of the hardware's effect,
which `exec` gives them (notes/assumptions/6.md). -/
def Obligations.DelayLineChangesOnlyAtThePointer : Prop :=
  ∀ (i : Instr) (s : State), s.inRange = true → ∃ t, exec i s = .next t ∧
    (∀ x, i = .demod x ∨ i = .sample x → memRead t.disc.dl s.disc.ptr = x) ∧
    (∀ j : BitVec 5, j ≠ s.disc.ptr → memRead t.disc.dl j = memRead s.disc.dl j) ∧
    ((∀ x, i ≠ .demod x ∧ i ≠ .sample x) → ∀ j : BitVec 5, memRead t.disc.dl j = memRead s.disc.dl j)

/-- One-way data flow (R22, R111): what DEMOD and SAMPLE do to the discriminator and to `bit_out` depends on neither the UART,
nor the standalone filter, nor any output register. -/
def Obligations.DiscriminatorReadsNoLaterStage : Prop :=
  ∀ (i : Instr) (x : Sample) (s s' t t' : State), i = .demod x ∨ i = .sample x →
    s'.build = s.build → s'.disc = s.disc → exec i s = .next t → exec i s' = .next t' →
      t'.disc = t.disc ∧ t'.bitOut = t.bitOut

/-- FILT does not disturb the per-sample stream (R97, R176): before or after a DEMOD it leads to the same state, and before a
SAMPLE or DECODE to the same state but for `byte_valid`. -/
def Obligations.FiltCommutesWithTheStream : Prop :=
  ∀ (s : State) (x y : Sample) (b : Bool), s.inRange = true →
    (∃ t, execAll [.filt x, .demod y] s = .next t ∧ execAll [.demod y, .filt x] s = .next t) ∧
    (∃ t, execAll [.filt x, .sample y] s = .next t ∧
      execAll [.sample y, .filt x] s = .next { t with byteValid := false }) ∧
    (∃ t, execAll [.filt x, .decode b] s = .next t ∧
      execAll [.decode b, .filt x] s = .next { t with byteValid := false })

/-- Idle time is invisible to commands (R79): any cycles with `cmd_valid = 0` clear `byte_valid` and change nothing else, and
the run of a command presented after them goes as if it were presented at once; the same of NOPs before a command, and a
command does the same whatever `byte_valid` was. -/
def Obligations.IdleTimeChangesNoCommand : Prop :=
  ∀ s : State, s.inRange = true →
    (∀ ps rest : List PortIn, ps ≠ [] → (∀ p ∈ ps, p.rst = false ∧ p.cmdValid = false) → s.inputs = ps ++ rest →
      runCycles ps.length s = .next { s with byteValid := false, inputs := rest }) ∧
    (∀ (ps : List PortIn) (w : CmdWord) (rest : List PortIn) (n : Nat),
      (∀ p ∈ ps, p.rst = false ∧ p.cmdValid = false) → s.inputs = ps ++ PortIn.command w :: rest →
      runCycles (ps.length + 1 + n) s = runCycles (1 + n) (s.setInputs (PortIn.command w :: rest))) ∧
    (∀ (i : Instr) (n : Nat), execAll (List.replicate n .nop ++ [i]) s = perform i s) ∧
    (∀ (i : Instr) (v : Bool), exec i { s with byteValid := v } = exec i s)

/-- `range_violation` (R47): a command never clears it, only a reset cycle does, and no command reads it: with another
value in it every command does the same to everything else. -/
def Obligations.RangeViolationIsStickyAndUnread : Prop :=
  (∀ (p : PortIn) (s t : State), cycle p s = .next t →
    (p.rst = true → t.rangeViolation = false) ∧
    (p.rst = false → s.rangeViolation = true → t.rangeViolation = true)) ∧
  (∀ (i : Instr) (s t : State) (v : Bool), exec i s = .next t →
    ∃ t', exec i { s with rangeViolation := v } = .next t' ∧ { t' with rangeViolation := t.rangeViolation } = t ∧
      t'.outputs = t.outputs)

/-- Results do not depend on `ACC_W` while `range_violation` stays false (93_implementation_defined.md U5): every command
does the same in a build with wider accumulators. -/
def Obligations.ResultsDoNotDependOnAccWidth : Prop :=
  ∀ (i : Instr) (s t : State) (n : Nat), exec i s = .next t → t.rangeViolation = false →
    exec i (widen n s) = .next (widen n t)

/-! The whole machine. -/

/-- The build (R10): no step changes a parameter. -/
def Obligations.NoStepChangesTheBuild : Prop :=
  ∀ s t : State, step s = .next t → t.build = s.build

/-- Builds (R11): parameters within R9 and R11 are accepted, parameters outside R11 are refused, and accepted ones are the
build's. -/
def Obligations.OnlySupportedBuildsAreAccepted : Prop :=
  (∀ p : Params, p.spb < 2 ∨ p.coefShift < 1 ∨ 15 < p.coefShift ∨ p.accW < 32 →
    buildOfParams p = .error .unsupportedBuild) ∧
  (∀ p : Params, (∀ v ∈ [p.b0, p.b1, p.b2, p.a1, p.a2, p.thresh], -32768 ≤ v ∧ v ≤ 32767) →
    2 ≤ p.spb → 1 ≤ p.coefShift → p.coefShift ≤ 15 → 32 ≤ p.accW → ∃ B, buildOfParams p = .ok B) ∧
  (∀ (p : Params) (B : Build), buildOfParams p = .ok B →
    B.spb = p.spb ∧ B.half = p.spb / 2 ∧ B.coefShift = p.coefShift ∧ B.accW = p.accW ∧ B.thresh.toInt = p.thresh ∧
    B.b0.toInt = p.b0 ∧ B.b1.toInt = p.b1 ∧ B.b2.toInt = p.b2 ∧ B.a1.toInt = p.a1 ∧ B.a2.toInt = p.a2) ∧
  (∀ B : Build, 2 ≤ B.spb ∧ 1 ≤ B.coefShift ∧ B.coefShift ≤ 15 ∧ 32 ≤ B.accW)

/-- No command hangs, blocks or fails (R21, R151): from every state of R42 every command completes, in a state of R42. Of
the reserved codes, which a cycle of the model refuses, this speaks of the hardware's effect (notes/assumptions/6.md). -/
def Obligations.EveryCommandCompletes : Prop :=
  ∀ (i : Instr) (s : State), s.inRange = true → ∃ t, exec i s = .next t ∧ t.inRange = true

/-- Where a step stops (R166): it is refused exactly in a cycle that accepts a reserved code, with that code; and it faults
exactly in any other cycle without reset from a state outside R42. That the fault is taken by every such cycle, and the
refusal from every state, is the model's reading (notes/assumptions/6.md, notes/assumptions/7.md). -/
def Obligations.StepStopsOnlyOnReservedOrOutsideTheInvariants : Prop :=
  ∀ s : State,
    (∀ r, step s = .refused r ↔ AcceptsReserved s.presented ∧ r = .reservedCommand s.presented.cmdOp) ∧
    (∀ f, step s = .fault f ↔
      s.presented.rst = false ∧ ¬ AcceptsReserved s.presented ∧ s.inRange = false ∧ f = .outsideInvariants)

/-- The reset state is legal: R42, and every filter register within its width. -/
def Obligations.ResetStateIsLegal : Prop := ∀ B : Build, Legal (State.resetOf B) ∧ Legal State.reset

/-- Every step keeps a state legal: the invariants of R42, and every filter register within `ACC_W` bits (R30). -/
def Obligations.EveryStepKeepsLegalStates : Prop :=
  ∀ s t : State, Legal s → step s = .next t → Legal t

/-- Every run from reset of a sequence that R145 does not refuse goes on, and every state of it meets the invariants of R42,
each written out. -/
def Obligations.RunsFromResetNeverStop : Prop :=
  ∀ (B : Build) (ps : List PortIn) (n : Nat), screenSequence ps = .ok ps →
    ∃ t, runCycles n ((State.resetOf B).setInputs ps) = .next t ∧
      t.disc.ptr.toNat ≤ 21 ∧ t.uart.cnt ≤ B.spb ∧ t.uart.bitn.toNat ≤ 8 ∧
      (t.uart.bitn = 8#4 → t.uart.st = .stop) ∧ (t.uart.st = .idle → t.uart.cnt = 0) ∧
      (t.uart.st = .start → t.uart.cnt < B.half) ∧ (t.uart.st = .data ∨ t.uart.st = .stop → t.uart.cnt < B.spb)

/-- The observation of a run (R20): from reset, and for a sequence that R145 does not refuse, entry `k` is what the four
output ports show after cycle `k + 1`, and there is one entry for each cycle. -/
def Obligations.ObservationHasOneEntryPerCycle : Prop :=
  ∀ (B : Build) (ps : List PortIn) (n : Nat), screenSequence ps = .ok ps →
    (trace n ((State.resetOf B).setInputs ps)).length = n ∧
    ∀ k, k < n → ∃ t, runCycles (k + 1) ((State.resetOf B).setInputs ps) = .next t ∧
      (trace n ((State.resetOf B).setInputs ps))[k]? = some ⟨t.yOut, t.bitOut, t.byteValid, t.uart.rxc⟩

/-! The serial line. -/

/-- Reset idempotence (R137): after URST any bits are decoded as after `rst`. -/
def Obligations.UrstIsAFreshDecoder : Prop :=
  ∀ (s : State) (bs : List Bool), s.inRange = true → ∃ t u,
    execAll (.urst :: bs.map Instr.decode) s = .next t ∧
    execAll (bs.map Instr.decode) (State.resetOf s.build) = .next u ∧
    t.uart = u.uart ∧ t.byteValid = u.byteValid

/-- Round trip (R131, R132): a frame of any byte, each bit held for `SPB` calls, fed to a decoder that is idle on a line at
1, completes that byte on call `HALF + 9·SPB` and on no other call of the frame. -/
def Obligations.NominalFrameYieldsItsByteOnce : Prop :=
  ∀ (s : State) (v : Byte) (n : Nat), s.inRange = true → s.uart.st = .idle → s.uart.last = true →
    n < 10 * s.build.spb →
    ∃ t, execAll (((heldFor s.build.spb (frameBits v)).take (n + 1)).map Instr.decode) s = .next t ∧
      (t.byteValid = true ↔ n = s.build.half + 9 * s.build.spb) ∧
      (s.build.half + 9 * s.build.spb ≤ n → t.uart.rxc = v ∧ t.uart.st = .idle)

/-- Progress (R139): in DATA or STOP, an input that keeps one value for `SPB` calls has a midpoint sample in them: before
one of those calls the counter is one short of `SPB`, with the frame's bits so far untouched. -/
def Obligations.HeldInputReachesASample : Prop :=
  ∀ (s : State) (b : Bool), s.inRange = true → s.uart.st = .data ∨ s.uart.st = .stop →
    ∃ k, k < s.build.spb ∧ ∃ t, execAll (List.replicate k (.decode b)) s = .next t ∧
      t.uart.st = s.uart.st ∧ t.uart.bitn = s.uart.bitn ∧ t.uart.acc = s.uart.acc ∧ t.uart.cnt + 1 = s.build.spb

/-- Starvation (R139, R185): with `HALF >= 2`, an input that toggles on every call in DATA or STOP, where no sample is due at
its start, re-anchors on every call: no bit is sampled and no character completes, for as long as it lasts. -/
def Obligations.TogglingInputStarvesTheUart : Prop :=
  ∀ (s : State) (n : Nat), s.inRange = true → 2 ≤ s.build.half → s.uart.st = .data ∨ s.uart.st = .stop →
    s.uart.cnt + 1 < s.build.spb →
    ∃ t, execAll ((toggles s.uart.last (n + 1)).map Instr.decode) s = .next t ∧
      t.uart.st = s.uart.st ∧ t.uart.bitn = s.uart.bitn ∧ t.uart.acc = s.uart.acc ∧ t.uart.rxc = s.uart.rxc ∧
      t.uart.cnt = s.build.spb - s.build.half ∧ t.byteValid = false

/-! The delay line as a whole, and the safe input range. -/

/-- The shift of the delay line (R102, R103): counted from the oldest sample, a DEMOD or SAMPLE moves each of the 22 samples
one place towards the oldest, drops the oldest and puts its own last; any other command moves none. -/
def Obligations.DelayLineShiftsByOneSamplePerCall : Prop :=
  ∀ (i : Instr) (s t : State), exec i s = .next t →
    (∀ x, i = .demod x ∨ i = .sample x →
      nthOldest t.disc 21 = x ∧ ∀ k, k < 21 → nthOldest t.disc k = nthOldest s.disc (k + 1)) ∧
    ((∀ x, i ≠ .demod x ∧ i ≠ .sample x) → ∀ k, nthOldest t.disc k = nthOldest s.disc k)

/-- The safe input range (R98) and the recorded violation (R47): over cycles without reset `range_violation` is set exactly if
it was set, or the run leaves the safe range, or a product clamps; and a command calls `flag_rv()` in a `BQ` step, or in
its product, exactly under the conditions of R93 and of R106. -/
def Obligations.SafeRangeIsNoKernelFlag : Prop :=
  (∀ (n : Nat) (s t : State), (∀ p ∈ s.inputs.take n, p.rst = false) → runCycles n s = .next t →
    (t.rangeViolation = true ↔
      s.rangeViolation = true ∨ ¬ SafeRange n s ∨ someCommand productFlags n s = true)) ∧
  (∀ (i : Instr) (s : State),
    (kernelFlags i s = true ↔ ∃ x, (i = .filt x ∧ KernelViolates s.build s.f0 x.toInt) ∨
      ((i = .demod x ∨ i = .sample x) ∧ KernelViolates s.build s.disc.f1
        (sat16 (asr (x.toInt * (memRead s.disc.dl s.disc.ptr).toInt) 15)))) ∧
    (productFlags i s = true ↔ (i = .demod 0x8000#16 ∨ i = .sample 0x8000#16) ∧
      memRead s.disc.dl s.disc.ptr = 0x8000#16))
end

