-- ==== Sys2Proof/Laws/Arith.lean ====
section
/-! SUPPORT. What the arithmetic primitives of 00_scope.md R14 do: one lemma each for range, congruence and the exact case. -/

namespace Sys2Proof.Machine

theorem two_pow_split (n : Nat) (h : 1 ≤ n) : (2 : Int) ^ n = 2 * 2 ^ (n - 1) := by
  obtain ⟨m, rfl⟩ := Nat.exists_eq_add_of_le' h
  simp [pow_succ]; ring

theorem two_pow_pos_int (n : Nat) : (0 : Int) < 2 ^ n := by positivity

/-- `wrap_N` lies in the N-bit signed range. -/
theorem wrap_bounds (n : Nat) (h : 1 ≤ n) (v : Int) : -2 ^ (n - 1) ≤ wrap n v ∧ wrap n v < 2 ^ (n - 1) := by
  have h1 := two_pow_split n h
  have h2 := two_pow_pos_int n
  have h3 := Int.emod_nonneg (v + 2 ^ (n - 1)) (ne_of_gt h2)
  have h4 := Int.emod_lt_of_pos (v + 2 ^ (n - 1)) h2
  unfold wrap
  constructor <;> omega

/-- `wrap_N` keeps a value that fits. -/
theorem wrap_of_fits (n : Nat) (h : 1 ≤ n) (v : Int) (h1 : -2 ^ (n - 1) ≤ v) (h2 : v < 2 ^ (n - 1)) : wrap n v = v := by
  have h3 := two_pow_split n h
  unfold wrap
  rw [Int.emod_eq_of_lt (by omega) (by omega)]
  omega

/-- `wrap_N` changes a value exactly if it does not fit. -/
theorem wrap_eq_self_iff (n : Nat) (h : 1 ≤ n) (v : Int) : wrap n v = v ↔ -2 ^ (n - 1) ≤ v ∧ v < 2 ^ (n - 1) := by
  refine ⟨fun he => ?_, fun hf => wrap_of_fits n h v hf.1 hf.2⟩
  rw [← he]
  exact wrap_bounds n h v

/-- `wrap_N` is congruent to its argument modulo `2^N`. -/
theorem wrap_emod (n : Nat) (v : Int) : wrap n v % 2 ^ n = v % 2 ^ n := by
  unfold wrap
  rw [Int.sub_emod, Int.emod_emod_of_dvd _ (dvd_refl _), ← Int.sub_emod]
  congr 1
  ring

theorem sat16_bounds (v : Int) : -32768 ≤ sat16 v ∧ sat16 v ≤ 32767 := by unfold sat16; omega

/-- `sat16` changes a value exactly if it is no 16-bit signed value. -/
theorem sat16_eq_self_iff (v : Int) : sat16 v = v ↔ -32768 ≤ v ∧ v ≤ 32767 := by unfold sat16; omega

/-- `asr` is the floor of the quotient. -/
theorem asr_bounds (v : Int) (s : Nat) : asr v s * 2 ^ s ≤ v ∧ v < (asr v s + 1) * 2 ^ s := by
  have h := two_pow_pos_int s
  have h1 := Int.mul_ediv_add_emod v (2 ^ s)
  have h2 := Int.emod_nonneg v (ne_of_gt h)
  have h3 := Int.emod_lt_of_pos v h
  unfold asr
  constructor <;> nlinarith

@[simp] theorem asr_zero (s : Nat) : asr 0 s = 0 := by simp [asr]

@[simp] theorem sat16_zero : sat16 0 = 0 := by decide

theorem wrap_zero (n : Nat) (h : 1 ≤ n) : wrap n 0 = 0 :=
  wrap_of_fits n h 0 (by have := two_pow_pos_int (n - 1); omega) (two_pow_pos_int (n - 1))

/-- A sample is a 16-bit signed value. -/
theorem sampleOperand_bounds (x : Sample) : -32768 ≤ sampleOperand x ∧ sampleOperand x ≤ 32767 := by
  have h1 := BitVec.toInt_lt (x := x)
  have h2 := BitVec.le_toInt (x := x)
  unfold sampleOperand
  norm_num at h1 h2
  omega

theorem signedParam_bounds (c : BitVec 16) : -32768 ≤ signedParam c ∧ signedParam c ≤ 32767 := sampleOperand_bounds c

/-- A 16-bit signed value survives being stored in a 16-bit register. -/
theorem toSample_toInt (v : Int) (h1 : -32768 ≤ v) (h2 : v ≤ 32767) : (toSample v).toInt = v := by
  unfold toSample
  rw [BitVec.toInt_ofInt]
  exact Int.bmod_eq_of_le (by norm_num; omega) (by norm_num; omega)

theorem differs_eq_true (a b : Int) : differs a b = true ↔ a ≠ b := by simp [differs]

theorem differs_eq_false (a b : Int) : differs a b = false ↔ a = b := by simp [differs]

theorem accW_pos (B : Build) : 1 ≤ B.accW := by unfold Build.accW; omega

end Sys2Proof.Machine
end

