-- ==== Sys2Proof/Laws/Decode.lean ====
section
/-! SUPPORT. The fields of a word put together from its fields, and the word of a port. -/

namespace Sys2Proof

theorem wordOp_append (op : BitVec 3) (d : BitVec 16) : wordOp (op ++ d) = op := by
  apply BitVec.eq_of_getLsbD_eq
  intro i hi
  simp only [wordOp, BitVec.getLsbD_extractLsb', BitVec.getLsbD_append]
  simp [hi]

theorem wordData_append (op : BitVec 3) (d : BitVec 16) : wordData (op ++ d) = d := by
  apply BitVec.eq_of_getLsbD_eq
  intro i hi
  simp only [wordData, BitVec.getLsbD_extractLsb', BitVec.getLsbD_append]
  simp [hi]

/-- A word is its `op` above its `data`. -/
theorem op_append_data (w : CmdWord) : wordOp w ++ wordData w = w := by
  apply BitVec.eq_of_getLsbD_eq
  intro i hi
  simp only [wordOp, wordData, BitVec.getLsbD_extractLsb', BitVec.getLsbD_append]
  split
  · rename_i h; simp [h]
  · rename_i h
    have h1 : i - 16 < 3 := by omega
    have h2 : 16 + (i - 16) = i := by omega
    simp [h1, h2]

/-- The port that presents a word presents that word. -/
theorem Machine.PortIn.word_command (w : CmdWord) : (Machine.PortIn.command w).word = w := op_append_data w

end Sys2Proof
end

