-- ==== Sys2Proof/Laws/State.lean ====
section
/-! SUPPORT. One lemma per field of State per update, each true by rfl, so that no proof unfolds a record update. -/

namespace Sys2Proof.Machine

@[simp] theorem State.setF0_build (s : State) (v : FilterState) : (s.setF0 v).build = s.build := rfl
@[simp] theorem State.setF0_f0 (s : State) (v : FilterState) : (s.setF0 v).f0 = v := rfl
@[simp] theorem State.setF0_disc (s : State) (v : FilterState) : (s.setF0 v).disc = s.disc := rfl
@[simp] theorem State.setF0_uart (s : State) (v : FilterState) : (s.setF0 v).uart = s.uart := rfl
@[simp] theorem State.setF0_yOut (s : State) (v : FilterState) : (s.setF0 v).yOut = s.yOut := rfl
@[simp] theorem State.setF0_bitOut (s : State) (v : FilterState) : (s.setF0 v).bitOut = s.bitOut := rfl
@[simp] theorem State.setF0_byteValid (s : State) (v : FilterState) : (s.setF0 v).byteValid = s.byteValid := rfl
@[simp] theorem State.setF0_rangeViolation (s : State) (v : FilterState) : (s.setF0 v).rangeViolation = s.rangeViolation := rfl
@[simp] theorem State.setF0_inputs (s : State) (v : FilterState) : (s.setF0 v).inputs = s.inputs := rfl

@[simp] theorem State.setDisc_build (s : State) (v : DiscState) : (s.setDisc v).build = s.build := rfl
@[simp] theorem State.setDisc_f0 (s : State) (v : DiscState) : (s.setDisc v).f0 = s.f0 := rfl
@[simp] theorem State.setDisc_disc (s : State) (v : DiscState) : (s.setDisc v).disc = v := rfl
@[simp] theorem State.setDisc_uart (s : State) (v : DiscState) : (s.setDisc v).uart = s.uart := rfl
@[simp] theorem State.setDisc_yOut (s : State) (v : DiscState) : (s.setDisc v).yOut = s.yOut := rfl
@[simp] theorem State.setDisc_bitOut (s : State) (v : DiscState) : (s.setDisc v).bitOut = s.bitOut := rfl
@[simp] theorem State.setDisc_byteValid (s : State) (v : DiscState) : (s.setDisc v).byteValid = s.byteValid := rfl
@[simp] theorem State.setDisc_rangeViolation (s : State) (v : DiscState) : (s.setDisc v).rangeViolation = s.rangeViolation := rfl
@[simp] theorem State.setDisc_inputs (s : State) (v : DiscState) : (s.setDisc v).inputs = s.inputs := rfl

@[simp] theorem State.setUart_build (s : State) (v : UartState) : (s.setUart v).build = s.build := rfl
@[simp] theorem State.setUart_f0 (s : State) (v : UartState) : (s.setUart v).f0 = s.f0 := rfl
@[simp] theorem State.setUart_disc (s : State) (v : UartState) : (s.setUart v).disc = s.disc := rfl
@[simp] theorem State.setUart_uart (s : State) (v : UartState) : (s.setUart v).uart = v := rfl
@[simp] theorem State.setUart_yOut (s : State) (v : UartState) : (s.setUart v).yOut = s.yOut := rfl
@[simp] theorem State.setUart_bitOut (s : State) (v : UartState) : (s.setUart v).bitOut = s.bitOut := rfl
@[simp] theorem State.setUart_byteValid (s : State) (v : UartState) : (s.setUart v).byteValid = s.byteValid := rfl
@[simp] theorem State.setUart_rangeViolation (s : State) (v : UartState) : (s.setUart v).rangeViolation = s.rangeViolation := rfl
@[simp] theorem State.setUart_inputs (s : State) (v : UartState) : (s.setUart v).inputs = s.inputs := rfl

@[simp] theorem State.setYOut_build (s : State) (v : Sample) : (s.setYOut v).build = s.build := rfl
@[simp] theorem State.setYOut_f0 (s : State) (v : Sample) : (s.setYOut v).f0 = s.f0 := rfl
@[simp] theorem State.setYOut_disc (s : State) (v : Sample) : (s.setYOut v).disc = s.disc := rfl
@[simp] theorem State.setYOut_uart (s : State) (v : Sample) : (s.setYOut v).uart = s.uart := rfl
@[simp] theorem State.setYOut_yOut (s : State) (v : Sample) : (s.setYOut v).yOut = v := rfl
@[simp] theorem State.setYOut_bitOut (s : State) (v : Sample) : (s.setYOut v).bitOut = s.bitOut := rfl
@[simp] theorem State.setYOut_byteValid (s : State) (v : Sample) : (s.setYOut v).byteValid = s.byteValid := rfl
@[simp] theorem State.setYOut_rangeViolation (s : State) (v : Sample) : (s.setYOut v).rangeViolation = s.rangeViolation := rfl
@[simp] theorem State.setYOut_inputs (s : State) (v : Sample) : (s.setYOut v).inputs = s.inputs := rfl

@[simp] theorem State.setBitOut_build (s : State) (v : Bool) : (s.setBitOut v).build = s.build := rfl
@[simp] theorem State.setBitOut_f0 (s : State) (v : Bool) : (s.setBitOut v).f0 = s.f0 := rfl
@[simp] theorem State.setBitOut_disc (s : State) (v : Bool) : (s.setBitOut v).disc = s.disc := rfl
@[simp] theorem State.setBitOut_uart (s : State) (v : Bool) : (s.setBitOut v).uart = s.uart := rfl
@[simp] theorem State.setBitOut_yOut (s : State) (v : Bool) : (s.setBitOut v).yOut = s.yOut := rfl
@[simp] theorem State.setBitOut_bitOut (s : State) (v : Bool) : (s.setBitOut v).bitOut = v := rfl
@[simp] theorem State.setBitOut_byteValid (s : State) (v : Bool) : (s.setBitOut v).byteValid = s.byteValid := rfl
@[simp] theorem State.setBitOut_rangeViolation (s : State) (v : Bool) : (s.setBitOut v).rangeViolation = s.rangeViolation := rfl
@[simp] theorem State.setBitOut_inputs (s : State) (v : Bool) : (s.setBitOut v).inputs = s.inputs := rfl

@[simp] theorem State.setByteValid_build (s : State) (v : Bool) : (s.setByteValid v).build = s.build := rfl
@[simp] theorem State.setByteValid_f0 (s : State) (v : Bool) : (s.setByteValid v).f0 = s.f0 := rfl
@[simp] theorem State.setByteValid_disc (s : State) (v : Bool) : (s.setByteValid v).disc = s.disc := rfl
@[simp] theorem State.setByteValid_uart (s : State) (v : Bool) : (s.setByteValid v).uart = s.uart := rfl
@[simp] theorem State.setByteValid_yOut (s : State) (v : Bool) : (s.setByteValid v).yOut = s.yOut := rfl
@[simp] theorem State.setByteValid_bitOut (s : State) (v : Bool) : (s.setByteValid v).bitOut = s.bitOut := rfl
@[simp] theorem State.setByteValid_byteValid (s : State) (v : Bool) : (s.setByteValid v).byteValid = v := rfl
@[simp] theorem State.setByteValid_rangeViolation (s : State) (v : Bool) : (s.setByteValid v).rangeViolation = s.rangeViolation := rfl
@[simp] theorem State.setByteValid_inputs (s : State) (v : Bool) : (s.setByteValid v).inputs = s.inputs := rfl

@[simp] theorem State.setInputs_build (s : State) (v : List PortIn) : (s.setInputs v).build = s.build := rfl
@[simp] theorem State.setInputs_f0 (s : State) (v : List PortIn) : (s.setInputs v).f0 = s.f0 := rfl
@[simp] theorem State.setInputs_disc (s : State) (v : List PortIn) : (s.setInputs v).disc = s.disc := rfl
@[simp] theorem State.setInputs_uart (s : State) (v : List PortIn) : (s.setInputs v).uart = s.uart := rfl
@[simp] theorem State.setInputs_yOut (s : State) (v : List PortIn) : (s.setInputs v).yOut = s.yOut := rfl
@[simp] theorem State.setInputs_bitOut (s : State) (v : List PortIn) : (s.setInputs v).bitOut = s.bitOut := rfl
@[simp] theorem State.setInputs_byteValid (s : State) (v : List PortIn) : (s.setInputs v).byteValid = s.byteValid := rfl
@[simp] theorem State.setInputs_rangeViolation (s : State) (v : List PortIn) : (s.setInputs v).rangeViolation = s.rangeViolation := rfl
@[simp] theorem State.setInputs_inputs (s : State) (v : List PortIn) : (s.setInputs v).inputs = v := rfl

@[simp] theorem flagRv_build (v : Bool) (s : State) : (flagRv v s).build = s.build := rfl
@[simp] theorem flagRv_f0 (v : Bool) (s : State) : (flagRv v s).f0 = s.f0 := rfl
@[simp] theorem flagRv_disc (v : Bool) (s : State) : (flagRv v s).disc = s.disc := rfl
@[simp] theorem flagRv_uart (v : Bool) (s : State) : (flagRv v s).uart = s.uart := rfl
@[simp] theorem flagRv_yOut (v : Bool) (s : State) : (flagRv v s).yOut = s.yOut := rfl
@[simp] theorem flagRv_bitOut (v : Bool) (s : State) : (flagRv v s).bitOut = s.bitOut := rfl
@[simp] theorem flagRv_byteValid (v : Bool) (s : State) : (flagRv v s).byteValid = s.byteValid := rfl
@[simp] theorem flagRv_rangeViolation (v : Bool) (s : State) : (flagRv v s).rangeViolation = (s.rangeViolation || v) := rfl
@[simp] theorem flagRv_inputs (v : Bool) (s : State) : (flagRv v s).inputs = s.inputs := rfl

@[simp] theorem State.resetOf_build (B : Build) : (State.resetOf B).build = B := rfl
@[simp] theorem State.resetOf_f0 (B : Build) : (State.resetOf B).f0 = FilterState.zero := rfl
@[simp] theorem State.resetOf_disc (B : Build) : (State.resetOf B).disc = DiscState.initial := rfl
@[simp] theorem State.resetOf_uart (B : Build) : (State.resetOf B).uart = UartState.initial := rfl
@[simp] theorem State.resetOf_yOut (B : Build) : (State.resetOf B).yOut = 0#16 := rfl
@[simp] theorem State.resetOf_bitOut (B : Build) : (State.resetOf B).bitOut = false := rfl
@[simp] theorem State.resetOf_byteValid (B : Build) : (State.resetOf B).byteValid = false := rfl
@[simp] theorem State.resetOf_rangeViolation (B : Build) : (State.resetOf B).rangeViolation = false := rfl
@[simp] theorem State.resetOf_inputs (B : Build) : (State.resetOf B).inputs = [] := rfl

/-! The same field written twice keeps the second value, and writing back the value a field has changes nothing. -/

@[simp] theorem State.setByteValid_setByteValid (s : State) (v w : Bool) :
    (s.setByteValid v).setByteValid w = s.setByteValid w := rfl

@[simp] theorem State.setInputs_setInputs (s : State) (ps qs : List PortIn) :
    (s.setInputs ps).setInputs qs = s.setInputs qs := rfl

@[simp] theorem State.setUart_setUart (s : State) (U V : UartState) : (s.setUart U).setUart V = s.setUart V := rfl

@[simp] theorem State.setInputs_inputs_self (s : State) : s.setInputs s.inputs = s := rfl

@[simp] theorem State.setByteValid_byteValid_self (s : State) : s.setByteValid s.byteValid = s := rfl

/-! The invariants read the build, the index and the UART alone. -/

@[simp] theorem State.setByteValid_inRange (s : State) (v : Bool) : (s.setByteValid v).inRange = s.inRange := rfl

@[simp] theorem State.setInputs_inRange (s : State) (ps : List PortIn) : (s.setInputs ps).inRange = s.inRange := rfl

@[simp] theorem State.setF0_inRange (s : State) (F : FilterState) : (s.setF0 F).inRange = s.inRange := rfl

@[simp] theorem State.setYOut_inRange (s : State) (y : Sample) : (s.setYOut y).inRange = s.inRange := rfl

@[simp] theorem State.setBitOut_inRange (s : State) (b : Bool) : (s.setBitOut b).inRange = s.inRange := rfl

@[simp] theorem flagRv_inRange (v : Bool) (s : State) : (flagRv v s).inRange = s.inRange := rfl

@[simp] theorem State.advance_build (s : State) : s.advance.build = s.build := rfl

@[simp] theorem State.advance_inRange (s : State) : s.advance.inRange = s.inRange := rfl

end Sys2Proof.Machine
end

