-- ==== Sys2Proof/Laws/Ops.lean ====
section
/-! SUPPORT. What each shared operation can do, said once: completing, the delay line, the kernel, the discriminator step and
the UART step. -/

namespace Sys2Proof.Machine

/-! Completing. -/

theorem complete_eq_next (s t u : State) : complete s t = .next u ↔ s.inRange = true ∧ u = t := by
  by_cases h : s.inRange = true
  · simp only [complete, h, if_true, Host.Outcome.next.injEq, true_and]
    exact eq_comm
  · simp [complete, h]

theorem complete_of_inRange (s t : State) (h : s.inRange = true) : complete s t = .next t := by simp [complete, h]

theorem complete_eq_fault (s t : State) (f : Fault) : complete s t = .fault f ↔ s.inRange = false := by
  unfold complete
  cases f
  split <;> simp_all

theorem complete_ne_refused (s t : State) (r : Refusal) : complete s t ≠ .refused r := by
  unfold complete
  split <;> simp

/-! The invariants, as propositions. -/

theorem State.inRange_iff (s : State) :
    s.inRange = true ↔ s.disc.ptr.toNat < delayLen ∧ s.uart.inRange s.build = true := by
  rw [State.inRange, Bool.and_eq_true, decide_eq_true_eq]

theorem FilterState.fits_iff (n : Nat) (F : FilterState) :
    F.fits n = true ↔ (-2 ^ (n - 1) ≤ F.w1 ∧ F.w1 < 2 ^ (n - 1)) ∧ -2 ^ (n - 1) ≤ F.w2 ∧ F.w2 < 2 ^ (n - 1) := by
  simp only [FilterState.fits, Bool.and_eq_true, decide_eq_true_eq, and_assoc]

theorem State.registersFit_iff (s : State) :
    s.registersFit = true ↔ s.f0.fits s.build.accW = true ∧ s.disc.f1.fits s.build.accW = true := by
  rw [State.registersFit, Bool.and_eq_true]

theorem State.resetOf_inRange (B : Build) : (State.resetOf B).inRange = true := rfl

/-! The delay line. -/

theorem memRead_eq (m : DelayLine) (i : BitVec 5) (h : i.toNat < delayLen) : memRead m i = m[i.toNat] := by
  simp [memRead, Vector.getD, h]

theorem memRead_memWrite_same (m : DelayLine) (i : BitVec 5) (v : Sample) (h : i.toNat < delayLen) :
    memRead (memWrite m i v) i = v := by
  rw [memRead_eq _ _ h]
  simp [memWrite]

theorem memRead_memWrite_other (m : DelayLine) (i j : BitVec 5) (v : Sample) (h : i ≠ j) :
    memRead (memWrite m i v) j = memRead m j := by
  have hn : i.toNat ≠ j.toNat := fun he => h (BitVec.eq_of_toNat_eq he)
  by_cases hj : j.toNat < delayLen
  · rw [memRead_eq _ _ hj, memRead_eq _ _ hj]
    simp [memWrite, hn]
  · simp [memRead, Vector.getD, hj]

theorem nextPtr_toNat (p : BitVec 5) : (nextPtr p).toNat = (p.toNat + 1) % delayLen := by
  have h := Nat.mod_lt (p.toNat + 1) (show 0 < delayLen by decide)
  unfold nextPtr
  rw [BitVec.toNat_ofNat, Nat.mod_eq_of_lt (Nat.lt_trans h (by decide))]

/-! The kernel. -/

theorem bq_y_bounds (B : Build) (F : FilterState) (x : Int) : -32768 ≤ (bq B F x).y ∧ (bq B F x).y ≤ 32767 :=
  sat16_bounds _

/-- The kernel's accumulators fit their registers, whatever they held. -/
theorem bq_next_fits (B : Build) (F : FilterState) (x : Int) : (bq B F x).next.fits B.accW = true := by
  have h1 := wrap_bounds B.accW (accW_pos B)
  simp only [FilterState.fits, Bool.and_eq_true, decide_eq_true_eq]
  exact ⟨⟨⟨(h1 _).1, (h1 _).2⟩, (h1 _).1⟩, (h1 _).2⟩

/-- A filter at rest stays at rest on input 0. -/
theorem bq_zero (B : Build) : bq B .zero 0 = ⟨0, .zero, false⟩ := by
  simp [bq, FilterState.zero, wrap_zero _ (accW_pos B), differs]

/-! The decision. -/

theorem above_eq_true (yf thresh : Int) : above yf thresh = true ↔ thresh < yf := by simp [above]

/-! The UART. -/

theorem spb_ge (B : Build) : 2 ≤ B.spb := by unfold Build.spb; omega

theorem half_pos (B : Build) : 1 ≤ B.half := by have := spb_ge B; unfold Build.half; omega

theorem half_lt_spb (B : Build) : B.half < B.spb := by have := spb_ge B; unfold Build.half; omega

@[simp] theorem uart_last (B : Build) (U : UartState) (b : Bool) : (uart B U b).next.last = b := rfl

theorem bitn_succ_toNat (n : BitVec 4) (h : n.toNat < 8) : (n + 1#4).toNat = n.toNat + 1 := by
  rw [BitVec.toNat_add]
  simp
  omega

theorem bitn_succ_eq_eight (n : BitVec 4) (h : n.toNat < 8) : n + 1#4 = 8#4 ↔ n.toNat + 1 = 8 := by
  rw [← bitn_succ_toNat n h, BitVec.toNat_eq]
  rfl

/-- `UART(b)` keeps the invariants of R42. -/
theorem uart_keeps_inRange (B : Build) (U : UartState) (b : Bool) (h : U.inRange B = true) :
    (uart B U b).next.inRange B = true := by
  have hs := spb_ge B
  have hh := half_pos B
  have hl := half_lt_spb B
  obtain ⟨st, cnt, bitn, acc, rxc, last⟩ := U
  cases st <;> simp only [UartState.inRange, Bool.and_eq_true, decide_eq_true_eq] at h
  · simp only [uart, uartAdvance, uartIdle]
    split <;> simp [UartState.inRange] <;> omega
  · simp only [uart, uartAdvance, uartStart]
    split
    · split <;> simp [UartState.inRange] <;> omega
    · simp [UartState.inRange]; omega
  · have hb := bitn_succ_toNat bitn h.2
    have he := bitn_succ_eq_eight bitn h.2
    simp only [uart, uartAdvance, uartData, uartBetween]
    split
    · split <;> simp_all [UartState.inRange] <;> omega
    · split <;> simp [UartState.inRange] <;> omega
  · simp only [uart, uartAdvance, uartStop, uartBetween]
    split
    · split <;> simp [UartState.inRange]
    · split <;> simp [UartState.inRange] <;> omega

/-- In a state of R42 the counter never exceeds `SPB`, and so fits `CNT_W` bits. -/
theorem UartState.cnt_le_spb (B : Build) (U : UartState) (h : U.inRange B = true) : U.cnt ≤ B.spb := by
  have hl := half_lt_spb B
  unfold UartState.inRange at h
  split at h <;> simp at h <;> omega

theorem UartState.cnt_lt_two_pow_cntW (B : Build) (U : UartState) (h : U.inRange B = true) : U.cnt < 2 ^ B.cntW :=
  Nat.lt_of_lt_of_le (Nat.lt_succ_of_le (U.cnt_le_spb B h)) (Nat.le_pow_clog (by decide) _)

end Sys2Proof.Machine
end

