-- ==== Sys2Proof/Laws/Exec.lean ====
section
/-! SUPPORT. What a command and a cycle can do, said once: the inversion lemmas that later proofs cite instead of
unfolding `exec`, `cycle` and `step`. -/

namespace Sys2Proof.Machine

/-- The state a command leads to, where it completes. -/
def effect : Instr → State → State
  | .nop, s => s.setByteValid false
  | .filt x, s => filtWrites (bq s.build s.f0 (sampleOperand x)) s
  | .demod x, s => (fskWrites (fsk s.build s.disc x) s).setByteValid false
  | .decode b, s => uartWrites (uart s.build s.uart b) s
  | .urst, s => (s.setUart UartState.initial).setByteValid false
  | .sample x, s => uartWrites (uart s.build s.uart (fsk s.build s.disc x).bit) (fskWrites (fsk s.build s.disc x) s)
  | .reserved110, s => s.setByteValid false
  | .reserved111, s => s.setByteValid false

/-- Every command is the completion of its effect. -/
theorem exec_eq_complete (i : Instr) (s : State) : exec i s = complete s (effect i s) := by cases i <;> rfl

/-- A command that answers a next state does so from a state of R42, and its effect is that state. -/
theorem exec_eq_next (i : Instr) (s t : State) : exec i s = .next t ↔ s.inRange = true ∧ t = effect i s := by
  rw [exec_eq_complete, complete_eq_next]

/-- From a state of R42 every command completes in its effect. -/
theorem exec_of_inRange (i : Instr) (s : State) (h : s.inRange = true) : exec i s = .next (effect i s) :=
  (exec_eq_next i s _).2 ⟨h, rfl⟩

/-! An accepted command. -/

theorem perform_of_isDefined (i : Instr) (s : State) (h : i.isDefined = true) : perform i s = exec i s := by
  simp [perform, h]

theorem perform_of_reserved (i : Instr) (s : State) (h : i.isDefined = false) :
    perform i s = .refused (.reservedCommand (opcodeOf i)) := by simp [perform, h]

/-- An accepted command answers a next state exactly if it is a defined one and the state is of R42. -/
theorem perform_eq_next (i : Instr) (s t : State) :
    perform i s = .next t ↔ i.isDefined = true ∧ s.inRange = true ∧ t = effect i s := by
  cases h : i.isDefined
  · simp [perform_of_reserved i s h]
  · simp [perform_of_isDefined i s h, exec_eq_next]

/-- An accepted command faults exactly if it is a defined one and the state is outside R42. -/
theorem perform_eq_fault (i : Instr) (s : State) (f : Fault) :
    perform i s = .fault f ↔ i.isDefined = true ∧ s.inRange = false := by
  cases h : i.isDefined
  · simp [perform_of_reserved i s h]
  · rw [perform_of_isDefined i s h, exec_eq_complete, complete_eq_fault]
    simp

/-- An accepted command is refused exactly if it is a reserved code, with that code. -/
theorem perform_eq_refused (i : Instr) (s : State) (r : Refusal) :
    perform i s = .refused r ↔ i.isDefined = false ∧ r = .reservedCommand (opcodeOf i) := by
  cases h : i.isDefined
  · simp [perform_of_reserved i s h, eq_comm]
  · rw [perform_of_isDefined i s h, exec_eq_complete]
    simp [complete_ne_refused]

/-! A cycle and a step. -/

/-- A cycle that presents a word performs its command. -/
theorem cycle_command (w : CmdWord) (s : State) : cycle (PortIn.command w) s = perform (decode w) s := by
  unfold cycle
  rw [PortIn.word_command]
  rfl

/-- From a state of R42 the command of a presented word completes in its effect. -/
theorem cycle_command_of_inRange (w : CmdWord) (s : State) (hd : (decode w).isDefined = true) (h : s.inRange = true) :
    cycle (PortIn.command w) s = .next (effect (decode w) s) := by
  rw [cycle_command, perform_eq_next]
  exact ⟨hd, h, rfl⟩

/-- A step that answers a next state is a reset, a defined command of R150, or an idle cycle. -/
theorem step_cases (s t : State) (h : step s = .next t) :
    (s.presented.rst = true ∧ t = (State.resetOf s.build).setInputs s.inputs.tail) ∨
    (s.presented.rst = false ∧ s.presented.cmdValid = true ∧ (decode s.presented.word).isDefined = true
      ∧ s.inRange = true ∧ t = effect (decode s.presented.word) s.advance) ∨
    (s.presented.rst = false ∧ s.presented.cmdValid = false ∧ s.inRange = true
      ∧ t = s.advance.setByteValid false) := by
  unfold step cycle at h
  split at h
  · rename_i hr
    refine .inl ⟨hr, ?_⟩
    unfold resetCycle at h
    injection h with h
    rw [← h]
    rfl
  · rename_i hr
    split at h
    · rename_i hv
      rw [perform_eq_next] at h
      exact .inr (.inl ⟨by simpa using hr, hv, h⟩)
    · rename_i hv
      unfold idleCycle at h
      rw [complete_eq_next] at h
      exact .inr (.inr ⟨by simpa using hr, by simpa using hv, h.1, h.2⟩)

/-! What the effects leave as it was. -/

@[simp] theorem effect_build (i : Instr) (s : State) : (effect i s).build = s.build := by cases i <;> rfl

@[simp] theorem effect_inputs (i : Instr) (s : State) : (effect i s).inputs = s.inputs := by cases i <;> rfl

/-- The effect of a command keeps the invariants of R42. -/
theorem effect_inRange (i : Instr) (s : State) (h : s.inRange = true) : (effect i s).inRange = true := by
  rw [State.inRange_iff] at h ⊢
  obtain ⟨hp, hu⟩ := h
  have hn : (nextPtr s.disc.ptr).toNat < delayLen := by
    rw [nextPtr_toNat]
    exact Nat.mod_lt _ (by decide)
  cases i with
  | demod x => exact ⟨hn, hu⟩
  | decode b => exact ⟨hp, uart_keeps_inRange _ _ _ hu⟩
  | urst => exact ⟨hp, rfl⟩
  | sample x => exact ⟨hn, uart_keeps_inRange _ _ _ hu⟩
  | _ => exact ⟨hp, hu⟩

end Sys2Proof.Machine
end

