-- ==== Sys2Proof/Laws/PerInstr.lean ====
section
/-! SUPPORT. Statements made per command: the `op` field of its word is the table's (30_encoding.md R70). -/

namespace Sys2Proof.Laws.OpField

/-- The word of a command carries the command's selector in `W[18:16]`. -/
def Statement (i : Instr) : Prop := wordOp (encode i) = opcodeOf i

theorem nop : Statement .nop := wordOp_append _ _

theorem filt (x : Sample) : Statement (.filt x) := wordOp_append _ _

theorem demod (x : Sample) : Statement (.demod x) := wordOp_append _ _

theorem decode (b : Bool) : Statement (.decode b) := wordOp_append _ _

theorem urst : Statement .urst := wordOp_append _ _

theorem sample (x : Sample) : Statement (.sample x) := wordOp_append _ _

theorem reserved110 : Statement .reserved110 := wordOp_append _ _

theorem reserved111 : Statement .reserved111 := wordOp_append _ _

end Sys2Proof.Laws.OpField
end

