-- ==== Sys2Proof/Laws/Runs.lean ====
section
/-! SUPPORT. How runs of commands and of cycles unfold, and that `runCycles` is the host's own run of the core. -/

namespace Sys2Proof.Safety

open Sys2Proof.Machine

@[simp] theorem execAll_nil (s : State) : execAll [] s = .next s := rfl

theorem execAll_cons (i : Instr) (is : List Instr) (s t : State) (h : perform i s = .next t) :
    execAll (i :: is) s = execAll is t := by simp [execAll, h]

theorem execAll_append (is js : List Instr) (s t : State) (h : execAll is s = .next t) :
    execAll (is ++ js) s = execAll js t := by
  induction is generalizing s with
  | nil => simp only [execAll_nil, Host.Outcome.next.injEq] at h; simp [h]
  | cons i is ih =>
    cases he : perform i s with
    | next u => rw [List.cons_append, execAll_cons i _ s u he]; exact ih u (by rwa [execAll_cons i _ s u he] at h)
    | fault f => simp [execAll, he] at h
    | refused r => simp [execAll, he] at h

@[simp] theorem runCycles_zero (s : State) : runCycles 0 s = .next s := rfl

theorem runCycles_succ (n : Nat) (s t : State) (h : step s = .next t) : runCycles (n + 1) s = runCycles n t := by
  simp [runCycles, h]

/-- One step of the host's run, of any core. -/
theorem host_run_succ (M : Host.Core) (n : Nat) (s : M.State) :
    M.run (n + 1) s = match M.step s with
      | .next t => M.run n t
      | .fault r => .fault r
      | .refused r => .refused r := rfl

/-- The runs claims are stated with are the host's. -/
theorem runCycles_eq_core_run (n : Nat) (s : State) : runCycles n s = Host.Core.run core n s := by
  induction n generalizing s with
  | zero => rfl
  | succ n ih =>
    refine Eq.trans ?_ (host_run_succ core n s).symm
    cases h : core.step s with
    | next t => exact (runCycles_succ n s t h).trans (ih t)
    | fault f =>
      have h' : step s = .fault f := h
      simp only [runCycles, h']
      rfl
    | refused r =>
      have h' : step s = .refused r := h
      simp only [runCycles, h']
      rfl

end Sys2Proof.Safety
end

