-- ==== Sys2Proof/Tests/Slice0.lean ====
section
/-! SUPPORT. Small tests whose expected results are the spec's own (the section of 95_test_vectors.md, or the rule, is named), and
one witness for the hypotheses of each statement. -/

namespace Sys2Proof.Tests

open Sys2Proof.Machine
open Sys2Proof.Safety

/-! Builds and states of the tests. The coefficient sets are those of 95_test_vectors.md section 0. -/

/-- A build of the given coefficients at `COEF_SHIFT = 14`, the default `ACC_W`, `THRESH = 0`, `SPB = 4`. -/
def buildOf (b0 b1 b2 a1 a2 : Int) : Build :=
  { b0 := toSample b0, b1 := toSample b1, b2 := toSample b2, a1 := toSample a1, a2 := toSample a2,
    shiftSel := 13, thresh := 0#16, spbExtra := 2 }

/-- Set ID. -/
def setId : Build := buildOf 16384 0 0 0 0

/-- Set TP3. -/
def setTp3 : Build := buildOf 4096 8192 4096 (-8192) 4096

/-- Set WR, at `COEF_SHIFT = 15`. -/
def setWr : Build := { buildOf 32767 32767 32767 (-32768) (-32768) with shiftSel := 14 }

/-- After reset, set ID. -/
def fresh : State := State.resetOf setId

/-- As `fresh`, with the given UART registers. -/
def withUart (st : UartPhase) (cnt : Nat) (bitn : BitVec 4) (acc rxc : Byte) (last : Bool) : State :=
  fresh.setUart ⟨st, cnt, bitn, acc, rxc, last⟩

/-- As `fresh`, the delay line full of `v`. -/
def lineOf (v : Int) : State := fresh.setDisc ⟨.zero, Vector.replicate 22 (toSample v), 0#5⟩

/-- A field of the state a command leads to, or `d` where it does not complete. -/
def after {α : Type} (i : Instr) (s : State) (d : α) (f : State → α) : α :=
  match exec i s with
  | .next t => f t
  | .fault _ => d
  | .refused _ => d

/-! Ill-formed terms, one for each check (WellFormed.lean). -/

/-- Parameters that pass every check, the base of the next tests. -/
def goodParams : Params :=
  { b0 := 16384, b1 := 0, b2 := 0, a1 := 0, a2 := 0, coefShift := 14, thresh := 0, spb := 4 }

theorem test_params_accepted : goodParams.wellFormed = true := by decide

/-- R9: `ACC_W` is 32 where nothing else is said. -/
theorem test_acc_default : goodParams.accW = 32 ∧ setId.accW = 32 := by decide

theorem test_params_b0_too_large : { goodParams with b0 := 32768 }.wellFormed = false := by decide

theorem test_params_b1_too_small : { goodParams with b1 := -32769 }.wellFormed = false := by decide

theorem test_params_b2_too_large : { goodParams with b2 := 32768 }.wellFormed = false := by decide

theorem test_params_a1_too_small : { goodParams with a1 := -32769 }.wellFormed = false := by decide

theorem test_params_a2_too_large : { goodParams with a2 := 32768 }.wellFormed = false := by decide

theorem test_params_thresh_too_small : { goodParams with thresh := -32769 }.wellFormed = false := by decide

theorem test_params_shift_0 : { goodParams with coefShift := 0 }.wellFormed = false := by decide

theorem test_params_shift_16 : { goodParams with coefShift := 16 }.wellFormed = false := by decide

theorem test_params_acc_31 : { goodParams with accW := 31 }.wellFormed = false := by decide

theorem test_params_spb_1 : { goodParams with spb := 1 }.wellFormed = false := by decide

theorem test_asm_dec_too_large : (AsmCommand.filt (.dec 32768)).wellFormed = false := by decide

theorem test_asm_dec_too_small : (AsmCommand.demod (.dec (-32769))).wellFormed = false := by decide

theorem test_asm_hex_too_large : (AsmCommand.sample (.hex 0x10000)).wellFormed = false := by decide

theorem test_asm_bit_2 : (AsmLine.command (.decode 2) 1).wellFormed = false := by decide

theorem test_reserved_not_defined : Instr.reserved110.isDefined = false ∧ Instr.reserved111.isDefined = false := by decide

/-! Decoding, each word written out bit by bit from R66 and R70, and the words of section 5. -/

theorem test_decode_nop : decode 0b0000000000000000000#19 = .nop := by decide

theorem test_decode_nop_ignores_data : decode 0b0001111111111111111#19 = .nop := by decide

theorem test_decode_filt : decode 0b0010100000000000000#19 = .filt 16384#16 := by decide

theorem test_decode_demod : decode 0b0101111111111111111#19 = .demod (toSample (-1)) := by decide

theorem test_decode_decode_1 : decode 0b0110000000000000001#19 = .decode true := by decide

theorem test_decode_decode_0 : decode 0b0111111111111111110#19 = .decode false := by decide

theorem test_decode_urst : decode 0b1000000000000000000#19 = .urst := by decide

theorem test_decode_sample : decode 0b1011000000000000000#19 = .sample (toSample (-32768)) := by decide

theorem test_decode_reserved110 : decode 0b1101010101111001101#19 = .reserved110 := by decide

theorem test_decode_reserved111 : decode 0b1111111111111111111#19 = .reserved111 := by decide

theorem test_decode_20_bits_refused : decodeTableWord 24 0x80000 = none := by decide

theorem test_encode_filt : encode (.filt (toSample (-16385))) = 0x1BFFF#19 := by decide

/-! FILT (sections 2.1, 2.4 and 2.7). -/

/-- Section 2.7: the second call of the impulse, set TP3. -/
theorem test_filt_biquad :
    after (.filt 0#16) ((State.resetOf setTp3).setF0 ⟨167772160, 50331648⟩) (0#16, 0, 0)
      (fun t => (t.yOut, t.f0.w1, t.f0.w2)) = (10240#16, 134217728, -41943040) := by decide

/-- Section 2.4: the second call, set WR: the accumulator wraps and the output saturates. -/
theorem test_filt_wraps :
    after (.filt 32767#16) ((State.resetOf setWr).setF0 ⟨2147352577, 2147352577⟩) (0, 0, 0, false)
      (fun t => (t.yOut.toInt, t.f0.w1, t.f0.w2, t.rangeViolation)) = (-32768, 2147287042, -65535, true) := by decide

/-! DEMOD (section 3). -/

/-- Section 3.1: the 23rd call. -/
theorem test_demod_after_fill_up :
    after (.demod 16384#16) (lineOf 16384) (false, 0#5) (fun t => (t.bitOut, t.disc.ptr)) = (true, 1#5) := by decide

/-- Section 3.6: the saturating product. -/
theorem test_demod_saturates :
    after (.demod 0x8000#16) (lineOf (-32768)) (false, false) (fun t => (t.bitOut, t.rangeViolation)) = (true, true) := by
  decide

/-- Section 3.6: the product alone clamps, so the run is inside the safe range of R98 although it records a violation. -/
theorem test_clamp_is_in_safe_range :
    SafeRange 1 ((lineOf (-32768)).setInputs [PortIn.command 0x28000#19]) ∧
    someCommand productFlags 1 ((lineOf (-32768)).setInputs [PortIn.command 0x28000#19]) = true := by
  unfold SafeRange; decide

/-! DECODE (sections 4.1 and 4.3). -/

/-- Section 4.1, call 36: the eighth data bit. -/
theorem test_decode_eighth_bit :
    after (.decode true) (withUart .data 3 7#4 0x4A#8 0x00#8 true) UartState.initial (·.uart)
      = ⟨.stop, 0, 8#4, 0xA5#8, 0x00#8, true⟩ := by decide

/-- Section 4.1, call 40: the stop bit completes the character. -/
theorem test_decode_stop_completes :
    after (.decode true) (withUart .stop 3 8#4 0xA5#8 0x00#8 true) (UartState.initial, false)
      (fun t => (t.uart, t.byteValid)) = (⟨.idle, 0, 0#4, 0xA5#8, 0xA5#8, true⟩, true) := by decide

/-! URST (section 4.6.2). -/

theorem test_urst_example :
    after .urst (withUart .data 1 3#4 0xA0#8 0x41#8 false) fresh.uart (·.uart)
      = ⟨.idle, 0, 0#4, 0x00#8, 0x00#8, true⟩ := by decide

/-! SAMPLE (section 5.1). -/

/-- Section 5.1.1, the worked example of R141. -/
theorem test_sample_from_reset :
    after (.sample 0#16) fresh (true, fresh.uart, true) (fun t => (t.bitOut, t.uart, t.byteValid))
      = (false, ⟨.start, 0, 0#4, 0x00#8, 0x00#8, false⟩, false) := by decide

/-- Section 5.1.2, call 22: the edge falls on a due sample, which wins. -/
theorem test_sample_sees_its_own_bit :
    after (.sample 16384#16) ((lineOf 16384).setUart ⟨.data, 3, 4#4, 0x00#8, 0x00#8, false⟩) fresh.uart (·.uart)
      = ⟨.data, 0, 5#4, 0x80#8, 0x00#8, true⟩ := by decide

/-! NOP and the reserved codes (sections 5.2.1 and 5.3). -/

theorem test_nop_after_completion :
    after .nop ((withUart .idle 0 0#4 0xA5#8 0xA5#8 true).setByteValid true) (true, 0#8)
      (fun t => (t.byteValid, t.outputs.byteOut)) = (false, 0xA5#8) := by decide

theorem test_reserved110_as_nop : after .reserved110 (fresh.setByteValid true) fresh id = fresh := by decide

theorem test_reserved111_as_nop : after .reserved111 (fresh.setByteValid true) fresh id = fresh := by decide

/-! Cycles. -/

/-- Section 5.4.2: `rst` wins over a command. -/
theorem test_rst_wins : (match cycle ⟨true, true, 1#3, 0x4000#16⟩ (fresh.setYOut 5#16) with
    | .next t => decide (t = fresh)
    | .fault _ => false
    | .refused _ => false) = true := by decide

/-- R166: a state outside R42 is a fault. -/
theorem test_outside_invariants : (match exec .nop (withUart .idle 1 0#4 0#8 0#8 true) with
    | .next _ => false
    | .fault f => decide (f = .outsideInvariants)
    | .refused _ => false) = true := by decide

/-- R145, R150: a cycle that accepts a reserved code is refused with it. -/
theorem test_reserved_cycle_refused : (match cycle (PortIn.command 0x6ABCD#19) fresh with
    | .next _ => false
    | .fault _ => false
    | .refused r => decide (r = .reservedCommand 0b110#3)) = true := by decide

/-- A word placed at reset is the command the first step runs, for the uninterpreted build. -/
theorem test_first_step_runs_placed_word : (match step (State.reset.withFetchWord 24 0x40000) with
    | .next _ => true
    | .fault _ => false
    | .refused _ => false) = true := by decide

/-! The assembler (R75 to R77). -/

theorem test_text_copies :
    assembleText ['D', 'E', 'C', 'O', 'D', 'E', ' ', '1', ' ', '*', ' ', '2', ' ', ';', 'x']
      = .ok [PortIn.command 0x30001#19, PortIn.command 0x30001#19] := by rfl

theorem test_text_wait_and_hex :
    assembleText ['W', 'A', 'I', 'T', ' ', '1', '\n', 'F', 'I', 'L', 'T', ' ', '0', 'x', 'B', 'F', 'F', 'F']
      = .ok [PortIn.idle, PortIn.command 0x1BFFF#19] := by rfl

theorem test_text_reserved_has_no_mnemonic :
    assembleText ['R', 'S', 'V', 'D'] = .error .unknownMnemonic := by rfl

/-! Witnesses: for each statement with hypotheses, a state and operands that meet them, each clause at a boundary. -/

theorem fresh_inRange : fresh.inRange = true := by decide

/-- Commands complete from `fresh`, which is what most statements assume. -/
theorem fresh_completes (i : Instr) : exec i fresh = .next (effect i fresh) :=
  (exec_eq_next i fresh _).2 ⟨fresh_inRange, rfl⟩

theorem witness_IgnoredOperandBitsChangeNothing :
    (0x30000#19).extractLsb' 16 3 = (0x3FFFE#19).extractLsb' 16 3 ∧ (0x30000#19).extractLsb' 16 3 = 0b011#3 ∧
    (0x30000#19).getLsbD 0 = (0x3FFFE#19).getLsbD 0 ∧ (0x0FFFF#19).extractLsb' 16 3 = 0b000#3 ∧
    (0x4FFFF#19).extractLsb' 16 3 = 0b100#3 := by decide

theorem witness_IgnoredOperandBits_assembled :
    assemble (.decode 1) = .ok 0x30001#19 ∧ assemble .nop = .ok 0x00000#19 ∧ assemble .urst = .ok 0x40000#19 :=
  ⟨rfl, rfl, rfl⟩

theorem witness_SampleOperandIsTwosComplement :
    (0x18000#19).extractLsb' 16 3 = 0b001#3 ∧ (0x2FFFF#19).extractLsb' 16 3 = 0b010#3 ∧
    (0x57FFF#19).extractLsb' 16 3 = 0b101#3 := by decide

theorem witness_AssemblerEncodesAndRejects :
    (-32768 ≤ (-32768 : Int) ∧ (-32768 : Int) ≤ 32767) ∧ (-32768 ≤ (32767 : Int) ∧ (32767 : Int) ≤ 32767) ∧
    ¬ (-32768 ≤ (-32769 : Int) ∧ (-32769 : Int) ≤ 32767) ∧ ¬ (-32768 ≤ (32768 : Int) ∧ (32768 : Int) ≤ 32767) ∧
    0xFFFF ≤ 0xFFFF ∧ 0xFFFF < 0x10000 ∧ (2 : Int) ≠ 0 ∧ (2 : Int) ≠ 1 ∧ assemble .nop = .ok 0x00000#19 := by
  refine ⟨?_, ?_, ?_, ?_, ?_, ?_, ?_, ?_, rfl⟩ <;> decide

theorem witness_PseudoInstructionsExpand : assemble (.filt (.dec (-1))) = .ok 0x1FFFF#19 := rfl

/-- A host that presents DECODE 0 and then leaves a cycle idle. -/
def presenting : State := fresh.setInputs [PortIn.command 0x30000#19, PortIn.idle]

theorem witness_StepRunsTheDecodedCommand :
    presenting.inputs = PortIn.command 0x30000#19 :: [PortIn.idle] ∧ (PortIn.command 0x30000#19).rst = false ∧
    (PortIn.command 0x30000#19).cmdValid = true := by decide

theorem witness_StepRunsTheDecodedCommand_clauses :
    (decode (PortIn.command 0x30000#19).word).isDefined = true ∧
    (decode (PortIn.command 0x60000#19).word).isDefined = false := by decide

theorem witness_PlacedWordRunsNext :
    decodeTableWord 24 0x14000 = some (.filt 16384#16) ∧ (Instr.filt 16384#16).isDefined = true ∧
    decodeTableWord 24 0x7FFFF = some .reserved111 ∧ Instr.reserved111.isDefined = false := by decide

theorem witness_CyclePriorityOrder :
    (⟨true, true, 1#3, 0#16⟩ : PortIn).rst = true ∧
    (decode (⟨false, true, 5#3, 0#16⟩ : PortIn).word).isDefined = true ∧
    (decode (⟨false, true, 6#3, 0#16⟩ : PortIn).word).isDefined = false ∧
    (decode (⟨false, true, 7#3, 0xFFFF#16⟩ : PortIn).word).isDefined = false ∧ fresh.inRange = true ∧
    PortIn.idle.rst = false ∧ PortIn.idle.cmdValid = false := by decide

theorem witness_IdleCycleClearsByteValidOnly :
    PortIn.idle.rst = false ∧ PortIn.idle.cmdValid = false ∧ fresh.inRange = true := by decide

theorem witness_ExhaustedHostLeavesCyclesIdle : fresh.inputs = [] ∧ fresh.inRange = true := by decide

theorem witness_ResetCycleSetsEveryField : PortIn.reset.rst = true := by decide

theorem witness_HeldResetActsOnce :
    [PortIn.reset, ⟨true, true, 1#3, 0x4000#16⟩] ≠ [] ∧
    (∀ p ∈ [PortIn.reset, ⟨true, true, 1#3, 0x4000#16⟩], p.rst = true) ∧
    (fresh.setInputs [PortIn.reset, ⟨true, true, 1#3, 0x4000#16⟩, PortIn.command 0x10000#19]).inputs
      = [PortIn.reset, ⟨true, true, 1#3, 0x4000#16⟩] ++ [PortIn.command 0x10000#19] ∧
    (decode 0x10000#19).isDefined = true := by decide

theorem witness_NopClearsByteValidOnly : fresh.inRange = true ∧ (0x0FFFF#19).extractLsb' 16 3 = 0b000#3 := by decide

/-- Whether an input cycle accepts a reserved code, for the witnesses to evaluate. -/
theorem acceptsReserved_of (p : PortIn) (h : (!p.rst && p.cmdValid && (p.cmdOp == 6#3 || p.cmdOp == 7#3)) = true) :
    AcceptsReserved p := by simpa [AcceptsReserved, and_assoc] using h

theorem witness_ReservedCodesActAsNop :
    fresh.inRange = true ∧ AcceptsReserved (PortIn.command 0x60000#19) ∧ AcceptsReserved ⟨false, true, 7#3, 0xFFFF#16⟩ :=
  ⟨fresh_inRange, acceptsReserved_of _ (by decide), acceptsReserved_of _ (by decide)⟩

theorem witness_SequencesWithReservedCodesAreRefused :
    (∀ p ∈ [PortIn.command 0x5FFFF#19, PortIn.idle, ⟨true, true, 6#3, 0#16⟩, ⟨false, false, 7#3, 0#16⟩],
      ¬ AcceptsReserved p) ∧
    AcceptsReserved (PortIn.command 0x60000#19) ∧
    (fresh.setInputs ([PortIn.command 0x10000#19] ++ PortIn.command 0x60000#19 :: [PortIn.command 0x70000#19])).inputs
      = [PortIn.command 0x10000#19] ++ PortIn.command 0x60000#19 :: [PortIn.command 0x70000#19] ∧
    (∀ p ∈ [PortIn.command 0x10000#19], ¬ AcceptsReserved p) :=
  ⟨by simp [AcceptsReserved, PortIn.command, PortIn.idle], acceptsReserved_of _ (by decide), rfl,
    by simp [AcceptsReserved, PortIn.command]⟩

theorem witness_FiltComputesTheBiquad : fresh.inRange = true ∧ (0x18000#19).extractLsb' 16 3 = 0b001#3 := by decide

theorem witness_FiltIsExactWithoutViolation :
    (∃ t, exec (.filt 0x8000#16) fresh = .next t ∧ t.rangeViolation = false) ∧
    (∃ t, exec (.filt 1#16) (flagRv true fresh) = .next t ∧ kernelFlags (.filt 1#16) (flagRv true fresh) = false) :=
  ⟨⟨_, fresh_completes _, by decide⟩, ⟨_, exec_of_inRange _ _ (by decide), by decide⟩⟩

theorem witness_FiltAccumulatorsWrapToTheirWidth : ∃ t, exec (.filt 32767#16) fresh = .next t := ⟨_, fresh_completes _⟩

theorem witness_ViolationIsRecordedExactly :
    (∃ t, exec (.filt 32767#16) fresh = .next t) ∧ (∃ t, exec (.demod 0x8000#16) fresh = .next t) ∧
    (∃ t, exec (.sample 0x8000#16) fresh = .next t) :=
  ⟨⟨_, fresh_completes _⟩, ⟨_, fresh_completes _⟩, ⟨_, fresh_completes _⟩⟩

theorem witness_DemodComputesTheDiscriminator :
    fresh.inRange = true ∧ (fresh.setDisc { fresh.disc with ptr := 21#5 }).inRange = true := by decide

theorem witness_OnlyDiscriminatorCallsMoveThePointer :
    (∃ t, exec (.demod 1#16) fresh = .next t) ∧ (∃ t, exec .urst fresh = .next t) :=
  ⟨⟨_, fresh_completes _⟩, ⟨_, fresh_completes _⟩⟩

theorem witness_OnlyTheExtremeProductClamps :
    memRead (lineOf (-32768)).disc.dl (lineOf (-32768)).disc.ptr = 0x8000#16 ∧
    (∃ t, exec (.demod 0x8000#16) (lineOf (-32768)) = .next t) ∧
    (∃ t, exec (.sample 0x8000#16) (lineOf (-32768)) = .next t) :=
  ⟨by decide, ⟨_, (exec_eq_next _ _ _).2 ⟨by decide, rfl⟩⟩, ⟨_, (exec_eq_next _ _ _).2 ⟨by decide, rfl⟩⟩⟩

theorem witness_DelayedSampleIs22CallsOld :
    ∀ i ∈ [Instr.demod 1#16, .filt 2#16, .sample 3#16], i.isDefined = true := by decide

theorem witness_DelayLineShiftsByOneSamplePerCall :
    (∃ t, exec (.sample 7#16) (fresh.setDisc { fresh.disc with ptr := 21#5 }) = .next t) ∧
    (∃ t, exec (.decode true) fresh = .next t) :=
  ⟨⟨_, exec_of_inRange _ _ (by decide)⟩, ⟨_, fresh_completes _⟩⟩

theorem witness_FillUpIgnoresTheSamples :
    (∀ i ∈ [Instr.urst, .demod 0x7FFF#16, .decode true], i.isDefined = true) ∧
    samplesOf [Instr.urst, .demod 0x7FFF#16, .decode true] ≠ [] ∧
    (samplesOf [Instr.urst, .demod 0x7FFF#16, .decode true]).length ≤ 22 ∧
    (samplesOf (List.replicate 22 (Instr.sample 0x8000#16))).length = 22 := by decide

/-- `SPB = 4` and `HALF = 2` in the tests' builds. -/
theorem test_spb_half : fresh.build.spb = 4 ∧ fresh.build.half = 2 := by decide

theorem witness_UartTransitionTable_idle_start :
    (withUart .idle 0 0#4 0#8 0#8 true).inRange = true ∧ (withUart .idle 0 0#4 0#8 0#8 false).inRange = true ∧
    (withUart .start 1 0#4 0#8 0#8 false).inRange = true ∧ 1 + 1 = fresh.build.half ∧
    (withUart .start 0 0#4 0#8 0#8 false).inRange = true ∧ 0 + 1 < fresh.build.half := by decide

theorem witness_UartTransitionTable_data :
    (withUart .data 3 6#4 0#8 0#8 false).inRange = true ∧ 3 + 1 = fresh.build.spb ∧ (6#4).toNat + 1 < 8 ∧
    (withUart .data 3 7#4 0#8 0#8 true).inRange = true ∧ (7#4).toNat + 1 = 8 ∧
    (withUart .data 2 0#4 0#8 0#8 true).inRange = true ∧ 2 + 1 < fresh.build.spb := by decide

theorem witness_UartTransitionTable_stop :
    (withUart .stop 3 8#4 0xA5#8 0#8 true).inRange = true ∧ 3 + 1 = fresh.build.spb ∧
    (withUart .stop 2 8#4 0xA5#8 0#8 false).inRange = true ∧ 2 + 1 < fresh.build.spb := by decide

theorem witness_ShiftsAssembleLsbFirst :
    [true, false, true, false, false, true, false, true].length ≤ 8 ∧
    7 < [true, false, true, false, false, true, false, true].length := by decide

theorem witness_ByteValidMarksCompletedCharacters :
    ∃ t, cycle (PortIn.command 0x30001#19) (withUart .stop 3 8#4 0xA5#8 0x00#8 true) = .next t ∧ t.byteValid = true :=
  ⟨_, cycle_command_of_inRange _ _ (by decide) (by decide), by decide⟩

theorem witness_HeldCharacterChangesOnlyOnCompletion :
    (∃ t, cycle (PortIn.command 0x30001#19) (withUart .stop 3 8#4 0xA5#8 0x00#8 true) = .next t ∧ t.uart.rxc ≠ 0x00#8) ∧
    (∃ t, cycle (PortIn.command 0x40000#19) (withUart .idle 0 0#4 0x41#8 0x41#8 true) = .next t ∧ t.uart.rxc ≠ 0x41#8) :=
  ⟨⟨_, cycle_command_of_inRange _ _ (by decide) (by decide), by decide⟩,
    ⟨_, cycle_command_of_inRange _ _ (by decide) (by decide), by decide⟩⟩

theorem witness_UrstResetsTheUartOnly :
    (withUart .data 1 3#4 0xA0#8 0x41#8 false).inRange = true ∧ (0x4FFFF#19).extractLsb' 16 3 = 0b100#3 := by decide

theorem witness_SampleRunsDiscriminatorThenUart :
    fresh.inRange = true ∧ (0x50000#19).extractLsb' 16 3 = 0b101#3 := by decide

theorem witness_SampleEqualsDemodThenDecode : (withUart .stop 3 8#4 0xA5#8 0#8 true).inRange = true := by decide

theorem witness_CommandsWriteOnlyTheirFields : ∀ i, ∃ t, exec i fresh = .next t := fun i => ⟨_, fresh_completes i⟩

theorem witness_DelayLineChangesOnlyAtThePointer :
    (fresh.setDisc { fresh.disc with ptr := 21#5 }).inRange = true ∧ (0#5 : BitVec 5) ≠ 21#5 := by decide

theorem witness_DiscriminatorReadsNoLaterStage :
    (withUart .stop 3 8#4 0xA5#8 0#8 true).build = fresh.build ∧ (withUart .stop 3 8#4 0xA5#8 0#8 true).disc = fresh.disc ∧
    (∃ t, exec (.sample 1#16) fresh = .next t) ∧ (∃ t, exec (.sample 1#16) (withUart .stop 3 8#4 0xA5#8 0#8 true) = .next t) :=
  ⟨rfl, rfl, ⟨_, fresh_completes _⟩, ⟨_, (exec_eq_next _ _ _).2 ⟨by decide, rfl⟩⟩⟩

theorem witness_FiltCommutesWithTheStream : (withUart .stop 3 8#4 0xA5#8 0#8 true).inRange = true := by decide

theorem witness_IdleTimeChangesNoCommand :
    (withUart .data 2 7#4 0xA5#8 0#8 true).inRange = true ∧
    (∀ p ∈ [PortIn.idle, ⟨false, false, 5#3, 0xFFFF#16⟩], p.rst = false ∧ p.cmdValid = false) ∧
    (fresh.setInputs [PortIn.idle, ⟨false, false, 5#3, 0xFFFF#16⟩, PortIn.command 0x30001#19]).inputs
      = [PortIn.idle, ⟨false, false, 5#3, 0xFFFF#16⟩] ++ PortIn.command 0x30001#19 :: [] := by decide

theorem witness_SafeRangeIsNoKernelFlag :
    (∀ p ∈ ((lineOf (-32768)).setInputs [PortIn.command 0x28000#19, PortIn.idle]).inputs.take 2, p.rst = false) ∧
    ∃ t, runCycles 2 ((lineOf (-32768)).setInputs [PortIn.command 0x28000#19, PortIn.idle]) = .next t :=
  ⟨by decide, ⟨_, rfl⟩⟩

theorem witness_RangeViolationIsStickyAndUnread :
    (∃ t, cycle PortIn.reset (flagRv true fresh) = .next t) ∧
    (∃ t, cycle (PortIn.command 0x40000#19) (flagRv true fresh) = .next t) ∧ (flagRv true fresh).rangeViolation = true ∧
    (∃ t, exec (.sample 1#16) fresh = .next t) :=
  ⟨⟨_, rfl⟩, ⟨_, cycle_command_of_inRange _ _ (by decide) (by decide)⟩, rfl, ⟨_, fresh_completes _⟩⟩

theorem witness_ResultsDoNotDependOnAccWidth :
    ∃ t, exec (.filt 32767#16) fresh = .next t ∧ t.rangeViolation = false := ⟨_, fresh_completes _, by decide⟩

theorem witness_NoStepChangesTheBuild : ∃ t, step fresh = .next t := ⟨_, rfl⟩

theorem witness_OnlySupportedBuildsAreAccepted :
    ({ goodParams with spb := 1 } : Params).spb < 2 ∧ ({ goodParams with coefShift := 0 } : Params).coefShift < 1 ∧
    15 < ({ goodParams with coefShift := 16 } : Params).coefShift ∧ ({ goodParams with accW := 31 } : Params).accW < 32 ∧
    (∀ v ∈ [goodParams.b0, goodParams.b1, goodParams.b2, goodParams.a1, goodParams.a2, goodParams.thresh],
      -32768 ≤ v ∧ v ≤ 32767) ∧
    (2 ≤ goodParams.spb ∧ 1 ≤ goodParams.coefShift ∧ goodParams.coefShift ≤ 15 ∧ 32 ≤ goodParams.accW) ∧
    buildOfParams goodParams = .ok setId := by
  refine ⟨?_, ?_, ?_, ?_, ?_, ?_, rfl⟩ <;> decide

theorem witness_EveryCommandCompletes : (withUart .stop 3 8#4 0xFF#8 0#8 false).inRange = true := by decide

theorem witness_StepStopsOnlyOnReservedOrOutsideTheInvariants :
    (withUart .idle 1 0#4 0#8 0#8 true).presented = PortIn.idle ∧ ¬ AcceptsReserved PortIn.idle ∧
    (withUart .idle 1 0#4 0#8 0#8 true).inRange = false ∧
    AcceptsReserved (fresh.withFetchWord 19 0x70000).presented :=
  ⟨by decide, by simp [AcceptsReserved, PortIn.idle], by decide, acceptsReserved_of _ (by decide)⟩

/-- A sequence that is not refused: every command, an idle cycle, and a reserved code under reset. -/
def plainInputs : List PortIn :=
  [PortIn.command 0x00000#19, PortIn.command 0x10001#19, PortIn.command 0x20001#19, PortIn.command 0x30001#19,
    PortIn.command 0x40000#19, PortIn.command 0x50001#19, PortIn.idle, ⟨true, true, 6#3, 0#16⟩]

theorem plainInputs_screened : screenSequence plainInputs = .ok plainInputs := by rfl

theorem witness_RunsFromResetNeverStop : screenSequence plainInputs = .ok plainInputs := plainInputs_screened

theorem witness_ObservationHasOneEntryPerCycle : screenSequence plainInputs = .ok plainInputs ∧ 7 < plainInputs.length :=
  ⟨plainInputs_screened, by decide⟩

theorem witness_EveryStepKeepsLegalStates : Legal fresh ∧ ∃ t, step fresh = .next t := ⟨⟨by decide, by decide⟩, ⟨_, rfl⟩⟩

theorem witness_UrstIsAFreshDecoder : (withUart .data 1 1#4 0x80#8 0#8 true).inRange = true := by decide

theorem witness_NominalFrameYieldsItsByteOnce :
    fresh.inRange = true ∧ fresh.uart.st = .idle ∧ fresh.uart.last = true ∧ 0 < 10 * fresh.build.spb ∧
    39 < 10 * fresh.build.spb ∧ 38 = fresh.build.half + 9 * fresh.build.spb := by decide

theorem witness_HeldInputReachesASample :
    (withUart .data 0 0#4 0#8 0#8 true).inRange = true ∧ (withUart .stop 3 8#4 0#8 0#8 true).inRange = true := by decide

theorem witness_TogglingInputStarvesTheUart :
    (withUart .data 0 0#4 0#8 0#8 true).inRange = true ∧ (withUart .stop 2 8#4 0#8 0#8 true).inRange = true ∧
    2 ≤ fresh.build.half ∧ 2 + 1 < fresh.build.spb := by decide

end Sys2Proof.Tests
end

/-! Laws of the kernel, of builds, of steps and of runs that the statements about the whole machine rest on, and the
statements of 00_scope.md settled from them. -/

section

namespace Sys2Proof.Machine

open Sys2Proof.Safety

/-! What FILT writes (R92, R95). -/

/-- Two 16-bit signed values have a product of 32 signed bits; `(-2^15)^2 = 2^30` needs one bit more than R92 writes. -/
theorem toInt_mul_toInt_bounds (a b : BitVec 16) : -2 ^ 31 ≤ a.toInt * b.toInt ∧ a.toInt * b.toInt < 2 ^ 31 := by
  obtain ⟨ha, ha'⟩ := signedParam_bounds a
  obtain ⟨hb, hb'⟩ := signedParam_bounds b
  unfold signedParam at ha ha' hb hb'
  constructor <;> nlinarith

theorem two_pow_dvd_wrap_sub (n : Nat) (v : Int) : (2 ^ n : Int) ∣ wrap n v - v :=
  Int.ModEq.dvd (wrap_emod n v).symm

theorem fitsAcc_wrap (B : Build) (v : Int) : FitsAcc B (wrap B.accW v) := wrap_bounds B.accW (accW_pos B) v

theorem effect_filt_f0 (x : Sample) (s : State) :
    (effect (.filt x) s).f0 = (bq s.build s.f0 (sampleOperand x)).next := rfl

/-- `y_out` holds the kernel's output, which fits its register. -/
theorem effect_filt_yOut_toInt (x : Sample) (s : State) :
    (effect (.filt x) s).yOut.toInt = (bq s.build s.f0 (sampleOperand x)).y := by
  obtain ⟨hlo, hhi⟩ := bq_y_bounds s.build s.f0 (sampleOperand x)
  exact toSample_toInt _ hlo hhi

/-! What DEMOD and SAMPLE do to the discriminator (R109, R141). -/

/-- DEMOD and SAMPLE write the results of `FSK`, a function of the build and the discriminator alone. -/
theorem effect_disc_and_bitOut (i : Instr) (x : Sample) (s : State) (hi : i = .demod x ∨ i = .sample x) :
    (effect i s).disc = (fsk s.build s.disc x).next ∧ (effect i s).bitOut = (fsk s.build s.disc x).bit := by
  obtain rfl | rfl := hi
  · exact ⟨rfl, rfl⟩
  · exact ⟨rfl, rfl⟩

/-! Builds (R9, R11). -/

theorem inInt16_iff (v : Int) : inInt16 v = true ↔ -32768 ≤ v ∧ v ≤ 32767 := by simp [inInt16]

theorem wellFormed_iff (p : Params) :
    p.wellFormed = true ↔
      (∀ v ∈ [p.b0, p.b1, p.b2, p.a1, p.a2, p.thresh], -32768 ≤ v ∧ v ≤ 32767) ∧
      2 ≤ p.spb ∧ 1 ≤ p.coefShift ∧ p.coefShift ≤ 15 ∧ 32 ≤ p.accW := by
  simp only [Params.wellFormed, Bool.and_eq_true, decide_eq_true_eq, inInt16_iff, List.forall_mem_cons,
    List.not_mem_nil, false_implies, implies_true, and_true]
  tauto

theorem buildOfParams_of_not_wellFormed (p : Params) (h : ¬ p.wellFormed = true) :
    buildOfParams p = .error .unsupportedBuild := if_neg h

theorem buildOfParams_of_wellFormed (p : Params) (h : p.wellFormed = true) : ∃ B, buildOfParams p = .ok B :=
  ⟨_, if_pos h⟩

theorem wellFormed_of_buildOfParams (p : Params) (B : Build) (h : buildOfParams p = .ok B) : p.wellFormed = true := by
  by_contra hw
  simp [buildOfParams_of_not_wellFormed p hw] at h

/-- The signed parameters of an accepted build, read back, are the given ones. -/
theorem buildOfParams_words (p : Params) (B : Build) (h : buildOfParams p = .ok B) :
    B.thresh.toInt = p.thresh ∧ B.b0.toInt = p.b0 ∧ B.b1.toInt = p.b1 ∧ B.b2.toInt = p.b2 ∧
    B.a1.toInt = p.a1 ∧ B.a2.toInt = p.a2 := by
  have hw := wellFormed_of_buildOfParams p B h
  obtain ⟨hv, -⟩ := (wellFormed_iff p).1 hw
  have hword : ∀ v ∈ [p.b0, p.b1, p.b2, p.a1, p.a2, p.thresh], (BitVec.ofInt 16 v).toInt = v :=
    fun v hm => toSample_toInt v (hv v hm).1 (hv v hm).2
  rw [buildOfParams, if_pos hw] at h
  cases h
  refine ⟨?_, ?_, ?_, ?_, ?_, ?_⟩ <;> exact hword _ (by simp)

/-- The numbers of an accepted build are the given ones: the distances it holds from the bounds of R11 lose nothing. -/
theorem buildOfParams_numbers (p : Params) (B : Build) (h : buildOfParams p = .ok B) :
    B.spb = p.spb ∧ B.coefShift = p.coefShift ∧ B.accW = p.accW := by
  have hw := wellFormed_of_buildOfParams p B h
  obtain ⟨-, hspb, hlo, hhi, hacc⟩ := (wellFormed_iff p).1 hw
  rw [buildOfParams, if_pos hw] at h
  cases h
  simp only [Build.spb, Build.coefShift, Build.accW, Fin.val_ofNat]
  omega

theorem build_bounds (B : Build) : 2 ≤ B.spb ∧ 1 ≤ B.coefShift ∧ B.coefShift ≤ 15 ∧ 32 ≤ B.accW := by
  have hsel := B.shiftSel.isLt
  unfold Build.spb Build.coefShift Build.accW
  omega

/-! What every step keeps. -/

theorem step_build (s t : State) (h : step s = .next t) : t.build = s.build := by
  obtain ⟨-, rfl⟩ | ⟨-, -, -, -, rfl⟩ | ⟨-, -, -, rfl⟩ := step_cases s t h <;> simp

/-- A step consumes one input cycle. -/
theorem step_inputs (s t : State) (h : step s = .next t) : t.inputs = s.inputs.tail := by
  obtain ⟨-, rfl⟩ | ⟨-, -, -, -, rfl⟩ | ⟨-, -, -, rfl⟩ := step_cases s t h <;> simp [State.advance]

/-- A step leads into R42, whether by a reset or from a state of R42. -/
theorem step_inRange (s t : State) (h : step s = .next t) : t.inRange = true := by
  obtain ⟨-, rfl⟩ | ⟨-, -, -, hs, rfl⟩ | ⟨-, -, hs, rfl⟩ := step_cases s t h
  · exact State.resetOf_inRange s.build
  · exact effect_inRange _ _ hs
  · exact hs

theorem bitn_ne_eight (n : BitVec 4) (h : n.toNat < 8) : n ≠ 8#4 := by
  rintro rfl
  simp at h

/-- What R42 says of the UART, clause by clause. -/
theorem uart_inRange_clauses (B : Build) (U : UartState) (h : U.inRange B = true) :
    U.bitn.toNat ≤ 8 ∧ (U.bitn = 8#4 → U.st = .stop) ∧ (U.st = .idle → U.cnt = 0) ∧
    (U.st = .start → U.cnt < B.half) ∧ (U.st = .data ∨ U.st = .stop → U.cnt < B.spb) := by
  obtain ⟨st, cnt, bitn, acc, rxc, last⟩ := U
  cases st <;> simp only [UartState.inRange, Bool.and_eq_true, decide_eq_true_eq] at h <;> obtain ⟨hcnt, hbitn⟩ := h
  case idle => simp [hcnt, hbitn.le, bitn_ne_eight bitn hbitn]
  case start => simp [hcnt, hbitn.le, bitn_ne_eight bitn hbitn]
  case data => simp [hcnt, hbitn.le, bitn_ne_eight bitn hbitn]
  case stop => simp [hcnt, hbitn]

end Sys2Proof.Machine

namespace Sys2Proof.Safety

open Sys2Proof.Machine

/-! Runs of sequences that R145 does not refuse. -/

/-- A sequence is given back exactly if no cycle of it presents a reserved code. -/
theorem screenSequence_eq_self_iff (ps : List PortIn) :
    screenSequence ps = .ok ps ↔ ∀ p ∈ ps, reservedIn p = none := by
  induction ps with
  | nil => simp [screenSequence]
  | cons p ps ih =>
    rw [List.forall_mem_cons, ← ih, screenSequence]
    cases hp : reservedIn p with
    | some op => simp
    | none => cases hs : screenSequence ps <;> simp

/-- A state whose run never stops: it meets R42, and the host is to present no reserved code. -/
structure Runnable (s : State) : Prop where
  inRange : s.inRange = true
  inputs : ∀ p ∈ s.inputs, reservedIn p = none

theorem Runnable.resetOf (B : Build) (ps : List PortIn) (h : screenSequence ps = .ok ps) :
    Runnable ((State.resetOf B).setInputs ps) :=
  ⟨State.resetOf_inRange B, (screenSequence_eq_self_iff ps).1 h⟩

/-- The idle cycle that stands for an exhausted host presents no reserved code either. -/
theorem Runnable.presented {s : State} (h : Runnable s) : reservedIn s.presented = none := by
  unfold State.presented
  cases hi : s.inputs with
  | nil => rfl
  | cons p ps => exact h.inputs p (by simp [hi])

/-- From a state of R42 a cycle that accepts no reserved code completes. -/
theorem cycle_completes (p : PortIn) (s : State) (hs : s.inRange = true) (hp : reservedIn p = none) :
    ∃ t, cycle p s = .next t := by
  unfold cycle
  split
  · exact ⟨_, rfl⟩
  · rename_i hr
    split
    · rename_i hv
      have hd : (decode p.word).isDefined = true := by
        by_contra hn
        simp [reservedIn, hr, hv, hn] at hp
      exact ⟨_, (perform_eq_next _ _ _).2 ⟨hd, hs, rfl⟩⟩
    · exact ⟨_, complete_of_inRange _ _ hs⟩

theorem Runnable.step_completes {s : State} (h : Runnable s) : ∃ t, step s = .next t ∧ Runnable t := by
  obtain ⟨t, ht⟩ := cycle_completes s.presented s.advance h.inRange h.presented
  refine ⟨t, ht, step_inRange s t ht, ?_⟩
  rw [step_inputs s t ht]
  exact fun p hp => h.inputs p (List.mem_of_mem_tail hp)

/-- A runnable state runs for any number of cycles, in its own build. -/
theorem Runnable.runCycles_completes (n : Nat) {s : State} (h : Runnable s) :
    ∃ t, runCycles n s = .next t ∧ Runnable t ∧ t.build = s.build := by
  induction n generalizing s with
  | zero => exact ⟨s, rfl, h, rfl⟩
  | succ n ih =>
    obtain ⟨u, hu, hru⟩ := h.step_completes
    obtain ⟨t, ht, hrt, hb⟩ := ih hru
    exact ⟨t, (runCycles_succ n s u hu).trans ht, hrt, hb.trans (step_build s u hu)⟩

/-! The observation of a run (R20). -/

theorem trace_succ (n : Nat) (s t : State) (h : step s = .next t) : trace (n + 1) s = t.outputs :: trace n t := by
  simp [trace, h]

/-- A run of at least one cycle that completes completes its first cycle. -/
theorem runCycles_succ_eq_next (n : Nat) (s t : State) (h : runCycles (n + 1) s = .next t) :
    ∃ u, step s = .next u ∧ runCycles n u = .next t := by
  cases hs : step s with
  | next u => exact ⟨u, rfl, (runCycles_succ n s u hs).symm.trans h⟩
  | fault f => simp [runCycles, hs] at h
  | refused r => simp [runCycles, hs] at h

theorem trace_length (n : Nat) (s t : State) (h : runCycles n s = .next t) : (trace n s).length = n := by
  induction n generalizing s with
  | zero => rfl
  | succ n ih =>
    obtain ⟨u, hu, hr⟩ := runCycles_succ_eq_next n s t h
    rw [trace_succ n s u hu, List.length_cons, ih u hr]

/-- Entry `k` of the observation is what the state after cycle `k + 1` shows. -/
theorem trace_getElem? (n k : Nat) (s t : State) (hk : k < n) (h : runCycles (k + 1) s = .next t) :
    (trace n s)[k]? = some t.outputs := by
  induction k generalizing n s with
  | zero =>
    obtain ⟨m, rfl⟩ := Nat.exists_eq_add_of_lt hk
    obtain ⟨u, hu, hr⟩ := runCycles_succ_eq_next 0 s t h
    cases hr
    simp [trace_succ _ s t hu]
  | succ k ih =>
    obtain ⟨m, rfl⟩ : ∃ m, n = m + 1 := ⟨n - 1, by omega⟩
    obtain ⟨u, hu, hr⟩ := runCycles_succ_eq_next (k + 1) s t h
    rw [trace_succ m s u hu, List.getElem?_cons_succ]
    exact ih m u (by omega) hr

end Sys2Proof.Safety

namespace Sys2Proof.Proofs

open Sys2Proof.Machine
open Sys2Proof.Safety

/-- Settles O15: each field of the reset table by evaluation, the delay line by the law of `Vector.replicate`. -/
theorem resetStateHasTheSpecValues : Obligations.ResetStateHasTheSpecValues :=
  ⟨rfl, rfl, fun i => Vector.getElem_replicate i.isLt, rfl, rfl, rfl, rfl, rfl, rfl, rfl, rfl⟩

/-- Settles O21: the accumulators are `wrap` of the exact sums, and every factor of a product is a 16-bit word. -/
theorem filtAccumulatorsWrapToTheirWidth : Obligations.FiltAccumulatorsWrapToTheirWidth := by
  intro s t x h
  obtain ⟨-, rfl⟩ := (exec_eq_next _ _ _).1 h
  refine ⟨fitsAcc_wrap _ _, fitsAcc_wrap _ _, ?_, ?_, fun c => ?_⟩
  · rw [effect_filt_yOut_toInt, effect_filt_f0]
    exact two_pow_dvd_wrap_sub _ _
  · rw [effect_filt_yOut_toInt, effect_filt_f0]
    exact two_pow_dvd_wrap_sub _ _
  · obtain ⟨hx, hx'⟩ := toInt_mul_toInt_bounds c x
    obtain ⟨hy, hy'⟩ := toInt_mul_toInt_bounds c (effect (.filt x) s).yOut
    exact ⟨hx, hx', hy, hy'⟩

/-- Settles O37: both runs write the same `FSK` result. -/
theorem discriminatorReadsNoLaterStage : Obligations.DiscriminatorReadsNoLaterStage := by
  intro i x s s' t t' hi hb hd h h'
  obtain ⟨-, rfl⟩ := (exec_eq_next _ _ _).1 h
  obtain ⟨-, rfl⟩ := (exec_eq_next _ _ _).1 h'
  obtain ⟨hdisc, hbit⟩ := effect_disc_and_bitOut i x s hi
  obtain ⟨hdisc', hbit'⟩ := effect_disc_and_bitOut i x s' hi
  rw [hdisc, hbit, hdisc', hbit', hb, hd]
  exact ⟨rfl, rfl⟩

/-- Settles O42: a reset, a command and an idle cycle each keep the build. -/
theorem noStepChangesTheBuild : Obligations.NoStepChangesTheBuild := step_build

/-- Settles O43: `buildOfParams` accepts exactly the well-formed parameters, and keeps each of them. -/
theorem onlySupportedBuildsAreAccepted : Obligations.OnlySupportedBuildsAreAccepted := by
  refine ⟨fun p hp => ?_, fun p hv hspb hlo hhi hacc => ?_, fun p B h => ?_, build_bounds⟩
  · refine buildOfParams_of_not_wellFormed p fun hw => ?_
    obtain ⟨-, hbounds⟩ := (wellFormed_iff p).1 hw
    omega
  · exact buildOfParams_of_wellFormed p ((wellFormed_iff p).2 ⟨hv, hspb, hlo, hhi, hacc⟩)
  · obtain ⟨hspb, hshift, hacc⟩ := buildOfParams_numbers p B h
    exact ⟨hspb, by rw [Build.half, hspb], hshift, hacc, buildOfParams_words p B h⟩

/-- Settles O44: from a state of R42 a command completes in its effect, which keeps R42. -/
theorem everyCommandCompletes : Obligations.EveryCommandCompletes :=
  fun i s h => ⟨effect i s, exec_of_inRange i s h, effect_inRange i s h⟩

/-- Settles O48: a reset state with a screened sequence is runnable, and every runnable state meets R42. -/
theorem runsFromResetNeverStop : Obligations.RunsFromResetNeverStop := by
  intro B ps n hps
  obtain ⟨t, ht, hr, hb⟩ := (Runnable.resetOf B ps hps).runCycles_completes n
  have hB : t.build = B := hb
  obtain ⟨hptr, huart⟩ := (State.inRange_iff t).1 hr.inRange
  rw [hB] at huart
  exact ⟨t, ht, Nat.le_of_lt_succ hptr, UartState.cnt_le_spb B _ huart, uart_inRange_clauses B _ huart⟩

/-- Settles O49: the run completes for every number of cycles, and the trace of a completed run lists its states' outputs. -/
theorem observationHasOneEntryPerCycle : Obligations.ObservationHasOneEntryPerCycle := by
  intro B ps n hps
  have hr := Runnable.resetOf B ps hps
  constructor
  · obtain ⟨t, ht, -⟩ := hr.runCycles_completes n
    exact trace_length n _ t ht
  · intro k hk
    obtain ⟨t, ht, -⟩ := hr.runCycles_completes (k + 1)
    exact ⟨t, ht, trace_getElem? n k _ t hk ht⟩

end Sys2Proof.Proofs
end

/-! Laws of what a cycle and a command write (the output registers, the filter registers, `range_violation`), and the
statements of 10_state.md settled from them. -/

section

namespace Sys2Proof.Machine

open Sys2Proof.Safety

/-! A cycle on given ports. -/

/-- A cycle that answers a next state is a reset, a defined command, or an idle cycle: it is the step of a host that
presents its ports first. -/
theorem cycle_cases (p : PortIn) (s t : State) (h : cycle p s = .next t) :
    (p.rst = true ∧ t = (State.resetOf s.build).setInputs s.inputs) ∨
    (p.rst = false ∧ p.cmdValid = true ∧ (decode p.word).isDefined = true ∧ s.inRange = true
      ∧ t = effect (decode p.word) s) ∨
    (p.rst = false ∧ p.cmdValid = false ∧ s.inRange = true ∧ t = s.setByteValid false) :=
  step_cases (s.setInputs (p :: s.inputs)) t h

theorem cycle_of_rst (p : PortIn) (s : State) (h : p.rst = true) :
    cycle p s = .next ((State.resetOf s.build).setInputs s.inputs) := if_pos h

/-! The held character and `byte_valid` (R36, R39, R129). -/

theorem uart_valid (B : Build) (U : UartState) (b : Bool) : (uart B U b).valid = true ↔ Completes B U b := by
  simp [uart, uartCompletes, Completes, and_assoc]

/-- A UART call writes the held character exactly if it completes one, and then with the assembled byte. -/
theorem uart_rxc (B : Build) (U : UartState) (b : Bool) :
    (uart B U b).next.rxc = if (uart B U b).valid then U.acc else U.rxc := by
  obtain ⟨st, cnt, bitn, acc, rxc, last⟩ := U
  cases st <;> simp only [uart, uartAdvance, uartCompletes]
  case idle => simp [uartIdle, apply_ite UartState.rxc]
  case start => simp [uartStart, apply_ite UartState.rxc]
  case data => simp [uartData, uartBetween, apply_ite UartState.rxc]
  case stop => simp [uartStop, uartBetween, apply_ite UartState.rxc, ite_and]

theorem effect_byteValid (i : Instr) (s : State) :
    (effect i s).byteValid = true ↔
      (∃ b, i = .decode b ∧ Completes s.build s.uart b) ∨
      (∃ x, i = .sample x ∧ Completes s.build s.uart (fsk s.build s.disc x).bit) := by
  cases i with
  | decode b => simp [effect, uartWrites, uart_valid]
  | sample x => simp [effect, uartWrites, uart_valid]
  | _ => simp [effect, filtWrites, fskWrites]

/-- Any command but URST writes the held character exactly if it sets `byte_valid`, and then with the assembled byte. -/
theorem effect_rxc (i : Instr) (s : State) (h : i ≠ .urst) :
    (effect i s).uart.rxc = if (effect i s).byteValid then s.uart.acc else s.uart.rxc := by
  cases i with
  | decode b => exact uart_rxc s.build s.uart b
  | sample x => exact uart_rxc s.build s.uart (fsk s.build s.disc x).bit
  | urst => exact absurd rfl h
  | _ => rfl

/-! The filter registers (R30). -/

theorem zero_fits (B : Build) : FilterState.zero.fits B.accW = true := by
  have h := bq_next_fits B .zero 0
  rwa [bq_zero] at h

theorem resetOf_legal (B : Build) : Legal (State.resetOf B) :=
  ⟨State.resetOf_inRange B, (State.registersFit_iff _).2 ⟨zero_fits B, zero_fits B⟩⟩

/-- Each filter register a command writes is the result of a kernel step. -/
theorem effect_registersFit (i : Instr) (s : State) (h : s.registersFit = true) :
    (effect i s).registersFit = true := by
  rw [State.registersFit_iff] at h ⊢
  obtain ⟨hf0, hf1⟩ := h
  cases i with
  | filt x => exact ⟨bq_next_fits _ _ _, hf1⟩
  | demod x => exact ⟨hf0, bq_next_fits _ _ _⟩
  | sample x => exact ⟨hf0, bq_next_fits _ _ _⟩
  | _ => exact ⟨hf0, hf1⟩

theorem effect_legal (i : Instr) (s : State) (h : Legal s) : Legal (effect i s) :=
  ⟨effect_inRange i s h.1, effect_registersFit i s h.2⟩

/-! The recorded violation (R47, R93, R106). -/

/-- A command records exactly the flags of its product and of its `BQ` step. -/
theorem effect_rangeViolation (i : Instr) (s : State) :
    (effect i s).rangeViolation = (s.rangeViolation || (productFlags i s || kernelFlags i s)) := by
  cases i with
  | filt x => rfl
  | demod x => rfl
  | sample x => rfl
  | _ => exact (Bool.or_false _).symm

/-- No command reads `range_violation`: with another value in it the effect differs in that field alone. -/
theorem effect_of_rangeViolation (i : Instr) (s : State) (v : Bool) :
    { effect i { s with rangeViolation := v } with rangeViolation := (effect i s).rangeViolation } = effect i s := by
  cases i <;> rfl

/-- A kernel step flags exactly under the three conditions of R93. -/
theorem bq_violated_iff (B : Build) (F : FilterState) (x : Int) :
    (bq B F x).violated = true ↔ KernelViolates B F x := by
  have hfits (v : Int) : wrap B.accW v = v ↔ FitsAcc B v := wrap_eq_self_iff _ (accW_pos B) v
  simp only [bq, KernelViolates, signedParam, Bool.or_eq_true, differs_eq_true, ne_eq, hfits, sat16_eq_self_iff,
    or_assoc]

theorem sampleOperand_eq_least_iff (x : Sample) : sampleOperand x = -32768 ↔ x = 0x8000#16 :=
  BitVec.toInt_inj (y := 0x8000#16)

/-- `(-32768)^2` is the one product of two samples that leaves 16 bits when it is brought back to Q15 (R106). -/
theorem asr_mul_fits_iff (a b : Int) (ha : -32768 ≤ a ∧ a ≤ 32767) (hb : -32768 ≤ b ∧ b ≤ 32767) :
    (-32768 ≤ asr (a * b) prodShift ∧ asr (a * b) prodShift ≤ 32767) ↔ ¬ (a = -32768 ∧ b = -32768) := by
  obtain ⟨ha, ha'⟩ := ha
  obtain ⟨hb, hb'⟩ := hb
  have hlo : -(2 ^ 30) ≤ a * b := by nlinarith
  have hhi : a * b < 2 ^ 30 ↔ ¬ (a = -32768 ∧ b = -32768) := by
    constructor
    · rintro h ⟨rfl, rfl⟩
      norm_num at h
    · intro h
      obtain h | h : -32767 ≤ a ∨ -32767 ≤ b := by omega
      · nlinarith
      · nlinarith
  rw [← hhi, asr, prodShift]
  omega

theorem productClamps_iff (D : DiscState) (x : Sample) :
    productClamps D x = true ↔ x = 0x8000#16 ∧ memRead D.dl D.ptr = 0x8000#16 := by
  rw [productClamps, differs_eq_true, ne_eq, sat16_eq_self_iff, shiftedProduct,
    asr_mul_fits_iff _ _ (sampleOperand_bounds _) (sampleOperand_bounds _), not_not,
    sampleOperand_eq_least_iff, sampleOperand_eq_least_iff]

theorem kernelFlags_iff (i : Instr) (s : State) :
    kernelFlags i s = true ↔ ∃ x, (i = .filt x ∧ KernelViolates s.build s.f0 x.toInt) ∨
      ((i = .demod x ∨ i = .sample x) ∧ KernelViolates s.build s.disc.f1
        (sat16 (asr (x.toInt * (memRead s.disc.dl s.disc.ptr).toInt) 15))) := by
  cases i with
  | filt x => simp [kernelFlags, sampleOperand, bq_violated_iff]
  | demod x => simp [kernelFlags, fskKernel, shiftedProduct, sampleOperand, bq_violated_iff]
  | sample x => simp [kernelFlags, fskKernel, shiftedProduct, sampleOperand, bq_violated_iff]
  | _ => simp [kernelFlags]

theorem productFlags_iff (i : Instr) (s : State) :
    productFlags i s = true ↔ (i = .demod 0x8000#16 ∨ i = .sample 0x8000#16) ∧
      memRead s.disc.dl s.disc.ptr = 0x8000#16 := by
  cases i with
  | demod x => simpa [productFlags] using productClamps_iff s.disc x
  | sample x => simpa [productFlags] using productClamps_iff s.disc x
  | _ => simp [productFlags]

/-- The flags of a command do not depend on what the host is to present. -/
theorem flags_advance (i : Instr) (s : State) :
    productFlags i s.advance = productFlags i s ∧ kernelFlags i s.advance = kernelFlags i s := by
  cases i <;> exact ⟨rfl, rfl⟩

end Sys2Proof.Machine

namespace Sys2Proof.Safety

open Sys2Proof.Machine

/-! The recorded violation over a run (R47, R98). -/

theorem someCommand_succ (f : Instr → State → Bool) (n : Nat) (s t : State) (h : step s = .next t) :
    someCommand f (n + 1) s =
      ((!s.presented.rst && s.presented.cmdValid && f (decode s.presented.word) s) || someCommand f n t) := by
  simp [someCommand, h]

/-- A command of a run is the one of its first cycle or one of the rest. -/
theorem someCommand_first (f : Instr → State → Bool) (n : Nat) (s t : State) (h : step s = .next t) :
    someCommand f (n + 1) s = (someCommand f 1 s || someCommand f n t) := by
  rw [someCommand_succ f n s t h, someCommand_succ f 0 s t h]
  simp [someCommand]

/-- A step without reset records what its command flags, if it accepts one. -/
theorem step_rangeViolation (s t : State) (hr : s.presented.rst = false) (h : step s = .next t) :
    t.rangeViolation = (s.rangeViolation || (someCommand productFlags 1 s || someCommand kernelFlags 1 s)) := by
  rw [someCommand_succ _ _ _ _ h, someCommand_succ _ _ _ _ h]
  obtain ⟨hrst, -⟩ | ⟨-, hv, -, -, rfl⟩ | ⟨-, hv, -, rfl⟩ := step_cases s t h
  · simp [hr] at hrst
  · obtain ⟨hp, hk⟩ := flags_advance (decode s.presented.word) s
    rw [effect_rangeViolation, hp, hk]
    simp [hr, hv, someCommand, State.advance]
  · simp [hv, someCommand, State.advance]

theorem presented_rst_eq_false (n : Nat) (s : State) (h : ∀ p ∈ s.inputs.take (n + 1), p.rst = false) :
    s.presented.rst = false ∧ ∀ p ∈ s.inputs.tail.take n, p.rst = false := by
  unfold State.presented
  cases hi : s.inputs with
  | nil => simp [PortIn.idle]
  | cons p ps => simpa [hi] using h

/-- Over a run without reset, `range_violation` is what it was, or set by a flag of some command of the run. -/
theorem runCycles_rangeViolation (n : Nat) (s t : State) (hr : ∀ p ∈ s.inputs.take n, p.rst = false)
    (h : runCycles n s = .next t) :
    t.rangeViolation = (s.rangeViolation || (someCommand productFlags n s || someCommand kernelFlags n s)) := by
  induction n generalizing s with
  | zero =>
    cases h
    simp [someCommand]
  | succ n ih =>
    obtain ⟨u, hu, hrun⟩ := runCycles_succ_eq_next n s t h
    obtain ⟨hrst, htail⟩ := presented_rst_eq_false n s hr
    rw [ih u (by rwa [step_inputs s u hu]) hrun, step_rangeViolation s u hrst hu,
      someCommand_first productFlags n s u hu, someCommand_first kernelFlags n s u hu]
    ac_rfl

/-! Runs of DECODEs. -/

/-- A list of DECODEs completes from every state of R42, and what it leaves in the UART and in `byte_valid` depends on the
build and on those two alone. -/
theorem execAll_decode_agree (bs : List Bool) (s u : State) (hs : s.inRange = true) (hu : u.inRange = true)
    (hbuild : s.build = u.build) (huart : s.uart = u.uart) (hvalid : s.byteValid = u.byteValid) :
    ∃ s' u', execAll (bs.map Instr.decode) s = .next s' ∧ execAll (bs.map Instr.decode) u = .next u' ∧
      s'.uart = u'.uart ∧ s'.byteValid = u'.byteValid := by
  induction bs generalizing s u with
  | nil => exact ⟨s, u, rfl, rfl, huart, hvalid⟩
  | cons b bs ih =>
    have hcons (v : State) (hv : v.inRange = true) :
        execAll ((b :: bs).map Instr.decode) v = execAll (bs.map Instr.decode) (effect (.decode b) v) :=
      execAll_cons _ _ _ _ ((perform_eq_next _ _ _).2 ⟨rfl, hv, rfl⟩)
    rw [hcons s hs, hcons u hu]
    refine ih _ _ (effect_inRange _ s hs) (effect_inRange _ u hu) (by simpa) ?_ ?_ <;>
      simp [effect, uartWrites, hbuild, huart]

end Sys2Proof.Safety

namespace Sys2Proof.Proofs

open Sys2Proof.Machine
open Sys2Proof.Safety

/-- Settles O13: a reset cycle answers the reset state of the same build, each field of which is a value of R44. -/
theorem resetCycleSetsEveryField : Obligations.ResetCycleSetsEveryField := by
  intro p s h
  exact ⟨_, cycle_of_rst p s h, rfl, rfl, rfl, rfl, fun i => Vector.getElem_replicate i.isLt, rfl, rfl, rfl, rfl, rfl,
    rfl, rfl, rfl, rfl, rfl, rfl, rfl⟩

/-- Settles O30: a reset and an idle cycle clear `byte_valid`, and a command sets it exactly by completing a character. -/
theorem byteValidMarksCompletedCharacters : Obligations.ByteValidMarksCompletedCharacters := by
  intro p s t h
  obtain ⟨hr, rfl⟩ | ⟨hr, hv, -, -, rfl⟩ | ⟨hr, hv, -, rfl⟩ := cycle_cases p s t h
  · simp [hr]
  · simp [hr, hv, effect_byteValid]
  · simp [hv]

/-- Settles O31: the held character after a cycle is that of URST, of a completing call, or the one before. -/
theorem heldCharacterChangesOnlyOnCompletion : Obligations.HeldCharacterChangesOnlyOnCompletion := by
  intro p s t h hr
  obtain ⟨hrst, -⟩ | ⟨-, hv, -, -, rfl⟩ | ⟨-, -, -, rfl⟩ := cycle_cases p s t h
  · simp [hr] at hrst
  · by_cases hi : decode p.word = .urst
    · rw [hi]
      exact ⟨fun hb => absurd hb (by simp [effect]), fun _ => .inl ⟨hv, rfl, rfl⟩⟩
    · have hrxc := effect_rxc (decode p.word) s hi
      refine ⟨fun hb => ?_, fun hne => .inr ?_⟩
      · exact hrxc.trans (if_pos hb)
      · by_contra hb
        exact hne (hrxc.trans (if_neg hb))
  · simp

/-- Settles O35: the effect of each command, field by field. -/
theorem commandsWriteOnlyTheirFields : Obligations.CommandsWriteOnlyTheirFields := by
  intro i s t h
  obtain ⟨-, rfl⟩ := (exec_eq_next _ _ _).1 h
  refine ⟨effect_build i s, effect_inputs i s, ?_⟩
  cases i <;> rfl

/-- Settles O40: a command adds its flags to `range_violation`, and its effect is the same but for that field. -/
theorem rangeViolationIsStickyAndUnread : Obligations.RangeViolationIsStickyAndUnread := by
  refine ⟨fun p s t h => ?_, fun i s t v h => ?_⟩
  · obtain ⟨hr, rfl⟩ | ⟨hr, -, -, -, rfl⟩ | ⟨hr, -, -, rfl⟩ := cycle_cases p s t h
    · simp [hr]
    · simp +contextual [hr, effect_rangeViolation]
    · simp [hr]
  · obtain ⟨hs, rfl⟩ := (exec_eq_next _ _ _).1 h
    exact ⟨_, exec_of_inRange i _ hs, effect_of_rangeViolation i s v,
      (congrArg State.outputs (effect_of_rangeViolation i s v) :)⟩

/-- Settles O46: the registers of a reset state are at rest, and 0 fits every width. -/
theorem resetStateIsLegal : Obligations.ResetStateIsLegal := fun B => ⟨resetOf_legal B, resetOf_legal Config.build⟩

/-- Settles O47: a step leads into R42, and each filter register it writes is a wrapped one. -/
theorem everyStepKeepsLegalStates : Obligations.EveryStepKeepsLegalStates := by
  intro s t hs h
  obtain ⟨-, rfl⟩ | ⟨-, -, -, -, rfl⟩ | ⟨-, -, -, rfl⟩ := step_cases s t h
  · exact resetOf_legal s.build
  · exact effect_legal _ s.advance hs
  · exact hs

/-- Settles O50: URST leaves the UART of the reset state, and DECODEs of the same bits keep the two alike. -/
theorem urstIsAFreshDecoder : Obligations.UrstIsAFreshDecoder := by
  intro s bs hs
  rw [execAll_cons _ _ s (effect .urst s) ((perform_eq_next _ _ _).2 ⟨rfl, hs, rfl⟩)]
  exact execAll_decode_agree bs _ _ (effect_inRange .urst s hs) (State.resetOf_inRange s.build) rfl rfl rfl

/-- Settles O55: a run collects the flags of its commands, and a command flags under the conditions of R93 and R106. -/
theorem safeRangeIsNoKernelFlag : Obligations.SafeRangeIsNoKernelFlag := by
  refine ⟨fun n s t hr h => ?_, fun i s => ⟨kernelFlags_iff i s, productFlags_iff i s⟩⟩
  rw [runCycles_rangeViolation n s t hr h, SafeRange, Bool.not_eq_false, Bool.or_eq_true, Bool.or_eq_true,
    or_comm (a := someCommand productFlags n s = true)]

end Sys2Proof.Proofs
end

/-! Laws of the decoder, of the assembler, of presented words and of idle time, and the statements of 30_encoding.md
settled from them. -/

section

namespace Sys2Proof

/-! The decoder, row by row of the opcode map (R70). -/

theorem wordOp_encode (i : Instr) : wordOp (encode i) = opcodeOf i := wordOp_append _ _

theorem wordData_encode (i : Instr) : wordData (encode i) = dataOf i := wordData_append _ _

theorem decode_of_op_nop (w : CmdWord) (h : wordOp w = 0b000#3) : decode w = .nop := by simp [decode, h]

theorem decode_of_op_filt (w : CmdWord) (h : wordOp w = 0b001#3) : decode w = .filt (wordData w) := by simp [decode, h]

theorem decode_of_op_demod (w : CmdWord) (h : wordOp w = 0b010#3) : decode w = .demod (wordData w) := by
  simp [decode, h]

theorem decode_of_op_decode (w : CmdWord) (h : wordOp w = 0b011#3) :
    decode w = .decode ((wordData w).getLsbD 0) := by simp [decode, h]

theorem decode_of_op_urst (w : CmdWord) (h : wordOp w = 0b100#3) : decode w = .urst := by simp [decode, h]

theorem decode_of_op_sample (w : CmdWord) (h : wordOp w = 0b101#3) : decode w = .sample (wordData w) := by
  simp [decode, h]

theorem decode_of_op_reserved110 (w : CmdWord) (h : wordOp w = 0b110#3) : decode w = .reserved110 := by
  simp [decode, h]

theorem decode_of_op_reserved111 (w : CmdWord) (h : wordOp w = 0b111#3) : decode w = .reserved111 := by
  simp [decode, h]

/-- The opcode map has a row for every value of `op`. -/
theorem op_cases (op : BitVec 3) :
    op = 0b000#3 ∨ op = 0b001#3 ∨ op = 0b010#3 ∨ op = 0b011#3 ∨
    op = 0b100#3 ∨ op = 0b101#3 ∨ op = 0b110#3 ∨ op = 0b111#3 := by
  revert op
  decide

/-- The selector of a decoded command is the `op` field it was decoded from. -/
theorem opcodeOf_decode (w : CmdWord) : opcodeOf (decode w) = wordOp w := by
  obtain h | h | h | h | h | h | h | h := op_cases (wordOp w)
  · rw [decode_of_op_nop w h, h]; rfl
  · rw [decode_of_op_filt w h, h]; rfl
  · rw [decode_of_op_demod w h, h]; rfl
  · rw [decode_of_op_decode w h, h]; rfl
  · rw [decode_of_op_urst w h, h]; rfl
  · rw [decode_of_op_sample w h, h]; rfl
  · rw [decode_of_op_reserved110 w h, h]; rfl
  · rw [decode_of_op_reserved111 w h, h]; rfl

theorem decode_encode (i : Instr) : decode (encode i) = i := by
  cases i with
  | nop => exact decode_of_op_nop _ (wordOp_encode _)
  | filt x => rw [decode_of_op_filt _ (wordOp_encode _), wordData_encode]; rfl
  | demod x => rw [decode_of_op_demod _ (wordOp_encode _), wordData_encode]; rfl
  | decode b =>
    have hbit : (dataOf (.decode b)).getLsbD 0 = b := by cases b <;> rfl
    rw [decode_of_op_decode _ (wordOp_encode _), wordData_encode, hbit]
  | urst => exact decode_of_op_urst _ (wordOp_encode _)
  | sample x => rw [decode_of_op_sample _ (wordOp_encode _), wordData_encode]; rfl
  | reserved110 => exact decode_of_op_reserved110 _ (wordOp_encode _)
  | reserved111 => exact decode_of_op_reserved111 _ (wordOp_encode _)

theorem isDefined_eq_false_iff (i : Instr) : i.isDefined = false ↔ opcodeOf i = 0b110#3 ∨ opcodeOf i = 0b111#3 := by
  cases i <;> simp [Instr.isDefined, opcodeOf]

/-! The operand field (R68, R69). -/

theorem wordData_getLsbD (w : CmdWord) (i : Nat) (h : i < 16) : (wordData w).getLsbD i = w.getLsbD i := by
  simp [wordData, h]

theorem wordData_toNat (w : CmdWord) : (wordData w).toNat = w.toNat % 65536 := by
  simp [wordData]

/-- The encoder writes the ignored bits of DECODE, all but bit 0 of the data field, as 0. -/
theorem encode_decode_ignored (b : Bool) : (encode (.decode b)).extractLsb' 1 15 = 0#15 := by
  cases b <;> decide

end Sys2Proof

namespace Sys2Proof.Machine

open Sys2Proof.Safety

/-- The sample operand is the data field less `2^16` where its bit 15 is set (R68). -/
theorem sampleOperand_wordData (w : CmdWord) :
    sampleOperand (wordData w) =
      if w.getLsbD 15 then (w.toNat % 65536 : Int) - 65536 else (w.toNat % 65536 : Int) := by
  have hmsb : (wordData w).msb = w.getLsbD 15 := by
    rw [BitVec.msb_eq_getLsbD_last]
    exact wordData_getLsbD w 15 (by decide)
  rw [sampleOperand, BitVec.toInt_eq_msb_cond, hmsb, wordData_toNat]
  norm_num

/-! The assembler (R76, R77). -/

theorem assemble_of_wellFormed (c : AsmCommand) (h : c.wellFormed = true) :
    assemble c = .ok (encode (AsmCommand.instr c)) := if_pos h

theorem assemble_of_not_wellFormed (c : AsmCommand) (h : ¬ c.wellFormed = true) :
    assemble c = .error .operandRange := if_neg h

/-- A command that assembles gives its word. -/
theorem eq_encode_of_assemble (c : AsmCommand) (w : CmdWord) (h : assemble c = .ok w) :
    w = encode (AsmCommand.instr c) := by
  by_cases hc : c.wellFormed = true
  · rw [assemble_of_wellFormed c hc] at h
    cases h
    rfl
  · simp [assemble_of_not_wellFormed c hc] at h

theorem SampleLit.wellFormed_hex_iff (v : Nat) : (SampleLit.hex v).wellFormed = true ↔ v ≤ 0xFFFF := by
  simp [SampleLit.wellFormed]

theorem AsmCommand.wellFormed_decode_iff (b : Int) : (AsmCommand.decode b).wellFormed = true ↔ b = 0 ∨ b = 1 := by
  simp [AsmCommand.wellFormed]

/-- FILT, DEMOD and SAMPLE of an operand in range assemble to `op` above the operand's bits. -/
theorem assemble_sample_commands (x : SampleLit) (h : x.wellFormed = true) :
    assemble (.filt x) = .ok (0b001#3 ++ sampleBits x) ∧
    assemble (.demod x) = .ok (0b010#3 ++ sampleBits x) ∧
    assemble (.sample x) = .ok (0b101#3 ++ sampleBits x) :=
  ⟨assemble_of_wellFormed _ h, assemble_of_wellFormed _ h, assemble_of_wellFormed _ h⟩

/-- FILT, DEMOD and SAMPLE of an operand out of range do not assemble. -/
theorem assemble_sample_commands_error (x : SampleLit) (h : ¬ x.wellFormed = true) :
    assemble (.filt x) = .error .operandRange ∧
    assemble (.demod x) = .error .operandRange ∧
    assemble (.sample x) = .error .operandRange :=
  ⟨assemble_of_not_wellFormed _ h, assemble_of_not_wellFormed _ h, assemble_of_not_wellFormed _ h⟩

/-- The assembler has no mnemonic for a reserved code. -/
theorem instr_isDefined (c : AsmCommand) : (AsmCommand.instr c).isDefined = true := by cases c <;> rfl

theorem wordOp_of_assemble (c : AsmCommand) (w : CmdWord) (h : assemble c = .ok w) :
    wordOp w ≠ 0b110#3 ∧ wordOp w ≠ 0b111#3 := by
  have hd := mt (isDefined_eq_false_iff (AsmCommand.instr c)).2 (by simp [instr_isDefined])
  rw [eq_encode_of_assemble c w h, wordOp_encode]
  exact not_or.1 hd

theorem expandLine_command (c : AsmCommand) (w : CmdWord) (n : Nat) (h : assemble c = .ok w) :
    expandLine (.command c n) = .ok (List.replicate n (PortIn.command w)) := by simp [expandLine, h]

/-! A presented word (R78, R150). -/

theorem opcodeOf_decode_word (p : PortIn) : opcodeOf (decode p.word) = p.cmdOp :=
  (opcodeOf_decode p.word).trans (wordOp_append p.cmdOp p.cmdData)

theorem cycle_of_cmdValid (p : PortIn) (s : State) (hr : p.rst = false) (hv : p.cmdValid = true) :
    cycle p s = perform (decode p.word) s := by simp [cycle, hr, hv]

theorem cycle_of_idle (p : PortIn) (s : State) (hr : p.rst = false) (hv : p.cmdValid = false) (hs : s.inRange = true) :
    cycle p s = .next (s.setByteValid false) := by
  simp [cycle, hr, hv, idleCycle, complete_of_inRange s _ hs]

theorem step_of_inputs (s : State) (p : PortIn) (rest : List PortIn) (h : s.inputs = p :: rest) :
    step s = cycle p (s.setInputs rest) := by simp [step, State.presented, State.advance, h]

/-! No command reads `byte_valid` (R39, R79). -/

theorem effect_setByteValid (i : Instr) (s : State) (v : Bool) : effect i (s.setByteValid v) = effect i s := by
  cases i <;> rfl

theorem exec_setByteValid (i : Instr) (s : State) (v : Bool) : exec i (s.setByteValid v) = exec i s := by
  rw [exec_eq_complete, exec_eq_complete, effect_setByteValid]
  rfl

theorem perform_setByteValid (i : Instr) (s : State) (v : Bool) : perform i (s.setByteValid v) = perform i s := by
  rw [perform, perform, exec_setByteValid]

/-- A cycle that accepts a command goes the same whatever `byte_valid` was. -/
theorem step_command_setByteValid (w : CmdWord) (rest : List PortIn) (s : State) (v : Bool) :
    step ((s.setInputs (PortIn.command w :: rest)).setByteValid v) = step (s.setInputs (PortIn.command w :: rest)) := by
  rw [step_of_inputs _ _ rest rfl, step_of_inputs _ _ rest rfl, cycle_command, cycle_command]
  exact perform_setByteValid _ (s.setInputs rest) v

end Sys2Proof.Machine

namespace Sys2Proof.Safety

open Sys2Proof.Machine

/-! Sequences that accept a reserved code (R72, R145). -/

/-- An input cycle presents a reserved code exactly if it accepts one, the one on its `op` wires. -/
theorem reservedIn_eq_some_iff (p : PortIn) (op : BitVec 3) :
    reservedIn p = some op ↔ AcceptsReserved p ∧ op = p.cmdOp := by
  rw [reservedIn, Option.ite_none_right_eq_some, isDefined_eq_false_iff, opcodeOf_decode_word, Option.some.injEq,
    eq_comm (a := op)]
  rfl

theorem reservedIn_of_acceptsReserved (p : PortIn) (h : AcceptsReserved p) : reservedIn p = some p.cmdOp :=
  (reservedIn_eq_some_iff p _).2 ⟨h, rfl⟩

theorem reservedIn_eq_none_of_not_acceptsReserved (p : PortIn) (h : ¬ AcceptsReserved p) : reservedIn p = none :=
  Option.eq_none_iff_forall_ne_some.2 fun op hop => h ((reservedIn_eq_some_iff p op).1 hop).1

/-- The refusal of a sequence names the first reserved code it accepts. -/
theorem screenSequence_first_reserved (pre : List PortIn) (p : PortIn) (post : List PortIn)
    (hpre : ∀ q ∈ pre, ¬ AcceptsReserved q) (hp : AcceptsReserved p) :
    screenSequence (pre ++ p :: post) = .error (.reservedCommand p.cmdOp) := by
  induction pre with
  | nil => simp [screenSequence, reservedIn_of_acceptsReserved p hp]
  | cons q pre ih =>
    obtain ⟨hq, hpre⟩ := List.forall_mem_cons.1 hpre
    simp [screenSequence, reservedIn_eq_none_of_not_acceptsReserved q hq, ih hpre]

/-- A sequence that accepts a reserved code has a first cycle that does. -/
theorem exists_first_acceptsReserved (ps : List PortIn) (h : ∃ p ∈ ps, AcceptsReserved p) :
    ∃ pre p post, ps = pre ++ p :: post ∧ (∀ q ∈ pre, ¬ AcceptsReserved q) ∧ AcceptsReserved p := by
  induction ps with
  | nil => simp at h
  | cons q ps ih =>
    by_cases hq : AcceptsReserved q
    · exact ⟨[], q, ps, rfl, by simp, hq⟩
    · obtain ⟨pre, p, post, rfl, hpre, hp⟩ := ih (by simpa [hq] using h)
      exact ⟨q :: pre, p, post, rfl, List.forall_mem_cons.2 ⟨hq, hpre⟩, hp⟩

theorem step_of_acceptsReserved (s : State) (p : PortIn) (post : List PortIn) (hi : s.inputs = p :: post)
    (hp : AcceptsReserved p) : step s = .refused (.reservedCommand p.cmdOp) := by
  obtain ⟨hr, hv, hop⟩ := hp
  rw [step_of_inputs s p post hi, cycle_of_cmdValid p _ hr hv, perform_eq_refused, isDefined_eq_false_iff,
    opcodeOf_decode_word]
  exact ⟨hop, rfl⟩

/-- From a state of R42 a run that reaches its first reserved code is refused there, with the code. -/
theorem runCycles_first_reserved (pre : List PortIn) (p : PortIn) (post : List PortIn)
    (hpre : ∀ q ∈ pre, ¬ AcceptsReserved q) (hp : AcceptsReserved p) (n : Nat) (s : State) (hs : s.inRange = true)
    (hi : s.inputs = pre ++ p :: post) :
    runCycles (pre.length + 1 + n) s = .refused (.reservedCommand p.cmdOp) := by
  induction pre generalizing s with
  | nil =>
    rw [List.length_nil, Nat.zero_add, Nat.add_comm, runCycles, step_of_acceptsReserved s p post hi hp]
  | cons q pre ih =>
    obtain ⟨hq, hpre⟩ := List.forall_mem_cons.1 hpre
    obtain ⟨t, ht⟩ := cycle_completes q (s.setInputs (pre ++ p :: post)) hs
      (reservedIn_eq_none_of_not_acceptsReserved q hq)
    have hstep : step s = .next t := (step_of_inputs s q _ hi).trans ht
    have hti : t.inputs = pre ++ p :: post := by rw [step_inputs s t hstep, hi, List.cons_append, List.tail_cons]
    have hlen : (q :: pre).length + 1 + n = pre.length + 1 + n + 1 := by simp only [List.length_cons]; omega
    rw [hlen, runCycles_succ _ s t hstep]
    exact ih hpre t (step_inRange s t hstep) hti

/-! Idle time (R79, R144). -/

theorem runCycles_add (m n : Nat) (s t : State) (h : runCycles m s = .next t) :
    runCycles (m + n) s = runCycles n t := by
  induction m generalizing s with
  | zero =>
    cases h
    rw [Nat.zero_add]
  | succ m ih =>
    obtain ⟨u, hu, hr⟩ := runCycles_succ_eq_next m s t h
    rw [Nat.add_right_comm, runCycles_succ _ s u hu, ih u hr]

/-- The first step decides a run. -/
theorem runCycles_succ_congr (n : Nat) (s u : State) (h : step s = step u) :
    runCycles (n + 1) s = runCycles (n + 1) u := by rw [runCycles, runCycles, h]

/-- Any number of idle cycles consume their inputs; if there is one, `byte_valid` is 0 after it. -/
theorem runCycles_idle (ps rest : List PortIn) (s : State) (hs : s.inRange = true)
    (hps : ∀ p ∈ ps, p.rst = false ∧ p.cmdValid = false) (hi : s.inputs = ps ++ rest) :
    runCycles ps.length s = .next ((s.setInputs rest).setByteValid (ps.isEmpty && s.byteValid)) := by
  induction ps generalizing s with
  | nil => rw [← show s.inputs = rest from hi]; rfl
  | cons p ps ih =>
    obtain ⟨⟨hr, hv⟩, hps⟩ := List.forall_mem_cons.1 hps
    have hstep : step s = .next ((s.setInputs (ps ++ rest)).setByteValid false) :=
      (step_of_inputs s p _ hi).trans (cycle_of_idle p _ hr hv hs)
    rw [List.length_cons, runCycles_succ _ s _ hstep, ih ((s.setInputs (ps ++ rest)).setByteValid false) hs hps rfl]
    simp only [State.setByteValid_byteValid, Bool.and_false, List.isEmpty_cons, Bool.false_and]
    rfl

theorem execAll_singleton (i : Instr) (s : State) : execAll [i] s = perform i s := by
  cases h : perform i s <;> simp [execAll, h]

/-- NOPs before a command leave its answer as it is. -/
theorem execAll_nops_append (n : Nat) (i : Instr) (s : State) (hs : s.inRange = true) :
    execAll (List.replicate n .nop ++ [i]) s = perform i s := by
  induction n generalizing s with
  | zero => exact execAll_singleton i s
  | succ n ih =>
    have hnop : perform .nop s = .next (s.setByteValid false) := (perform_eq_next _ _ _).2 ⟨rfl, hs, rfl⟩
    rw [List.replicate_succ, List.cons_append, execAll_cons _ _ _ _ hnop, ih (s.setByteValid false) hs,
      perform_setByteValid]

end Sys2Proof.Safety

namespace Sys2Proof.Proofs

open Sys2Proof.Machine
open Sys2Proof.Safety

/-- Settles O1: each row of the opcode map reads back the fields its word was put together from. -/
theorem decodeAndEncodeAgree : Obligations.DecodeAndEncodeAgree :=
  ⟨decode_encode, fun w => (wordOp_encode (decode w)).trans (opcodeOf_decode w)⟩

/-- Settles O2: the row of each `op`, with the data field read back. -/
theorem opcodeMapSelectsByOpAlone : Obligations.OpcodeMapSelectsByOpAlone := by
  intro data
  have hop (op : BitVec 3) : wordOp (op ++ data) = op := wordOp_append op data
  have hdata (op : BitVec 3) : wordData (op ++ data) = data := wordData_append op data
  refine ⟨decode_of_op_nop _ (hop _), ?_, ?_, ?_, decode_of_op_urst _ (hop _), ?_,
    decode_of_op_reserved110 _ (hop _), decode_of_op_reserved111 _ (hop _)⟩
  · rw [decode_of_op_filt _ (hop _), hdata]
  · rw [decode_of_op_demod _ (hop _), hdata]
  · rw [decode_of_op_decode _ (hop _), hdata]
  · rw [decode_of_op_sample _ (hop _), hdata]

/-- Settles O3: the rows of DECODE, NOP and URST, and the words their commands assemble to. -/
theorem ignoredOperandBitsChangeNothing : Obligations.IgnoredOperandBitsChangeNothing := by
  refine ⟨fun w v s hop => ⟨fun hw hbit => ?_, ?_⟩, fun b w h => ?_, ?_⟩
  · have hread (u : CmdWord) (hu : wordOp u = 0b011#3) : decode u = .decode (u.getLsbD 0) := by
      rw [decode_of_op_decode u hu, wordData_getLsbD u 0 (by decide)]
    exact ⟨hread w hw, by rw [hread w hw, hread v (hop.symm.trans hw), hbit]⟩
  · rintro (hw | hw)
    · rw [decode_of_op_nop w hw, decode_of_op_nop v (hop.symm.trans hw)]
    · rw [decode_of_op_urst w hw, decode_of_op_urst v (hop.symm.trans hw)]
  · rw [eq_encode_of_assemble _ w h]
    exact encode_decode_ignored _
  · rintro w (h | h)
    · rw [eq_encode_of_assemble _ w h]
      exact wordData_encode .nop
    · rw [eq_encode_of_assemble _ w h]
      exact wordData_encode .urst

/-- Settles O4: the operand of each of the three commands is the data field. -/
theorem sampleOperandIsTwosComplement : Obligations.SampleOperandIsTwosComplement := fun w =>
  ⟨wordData w, decode_of_op_filt w, decode_of_op_demod w, decode_of_op_sample w, sampleOperand_wordData w,
    sampleOperand_bounds _⟩

/-- Settles O6: an operand in range gives the command's word, any other an error, and every word is of a defined command. -/
theorem assemblerEncodesAndRejects : Obligations.AssemblerEncodesAndRejects := by
  refine ⟨fun v hv => ?_, fun v hv => ?_, fun h hh => ?_, fun h hh => ?_, by decide, by decide, fun b h0 h1 => ?_, rfl,
    rfl, wordOp_of_assemble⟩
  · exact assemble_sample_commands (.dec v) ((inInt16_iff v).2 hv)
  · exact assemble_sample_commands_error (.dec v) (mt (inInt16_iff v).1 hv)
  · exact assemble_sample_commands (.hex h) ((SampleLit.wellFormed_hex_iff h).2 hh)
  · exact assemble_sample_commands_error (.hex h) (mt (SampleLit.wellFormed_hex_iff h).1 (by omega))
  · exact assemble_of_not_wellFormed _ (mt (AsmCommand.wellFormed_decode_iff b).1 (by omega))

/-- Settles O7: `WAIT` repeats the idle cycle, and a count repeats the cycle that presents the command's word. -/
theorem pseudoInstructionsExpand : Obligations.PseudoInstructionsExpand :=
  ⟨fun _ => ⟨PortIn.idle, rfl, rfl, rfl⟩,
    fun c w n h => ⟨PortIn.command w, rfl, rfl, PortIn.word_command w, expandLine_command c w n h⟩,
    PortIn.command 0x30001#19, PortIn.word_command _, expandLine_command (.decode 1) _ 3 (by decide)⟩

/-- Settles O8: the cycle performs the decoded command, which is executed or, as a reserved code, refused. -/
theorem stepRunsTheDecodedCommand : Obligations.StepRunsTheDecodedCommand := by
  intro s p rest hi hr hv
  rw [step_of_inputs s p rest hi, cycle_of_cmdValid p _ hr hv, ← opcodeOf_decode_word]
  exact ⟨perform_of_isDefined _ _, perform_of_reserved _ _⟩

/-- Settles O18: the screen and the run both stop at the first cycle that accepts a reserved code. -/
theorem sequencesWithReservedCodesAreRefused : Obligations.SequencesWithReservedCodesAreRefused := by
  refine fun ps => ⟨fun h => ?_, ?_, fun h => ?_⟩
  · exact (screenSequence_eq_self_iff ps).2 fun p hp => reservedIn_eq_none_of_not_acceptsReserved p (h p hp)
  · rintro pre p post rfl hpre hp
    exact ⟨screenSequence_first_reserved pre p post hpre hp,
      fun s n => runCycles_first_reserved pre p post hpre hp n s⟩
  · obtain ⟨pre, p, post, rfl, hpre, hp⟩ := exists_first_acceptsReserved ps h
    exact ⟨p, by simp, hp, screenSequence_first_reserved pre p post hpre hp⟩

/-- Settles O39: idle cycles and NOPs change `byte_valid` alone, which no command reads. -/
theorem idleTimeChangesNoCommand : Obligations.IdleTimeChangesNoCommand := by
  refine fun s hs => ⟨fun ps rest hne hps hi => ?_, fun ps w rest n hps hi => ?_,
    fun i n => execAll_nops_append n i s hs, fun i v => exec_setByteValid i s v⟩
  · rw [runCycles_idle ps rest s hs hps hi, List.isEmpty_eq_false_iff.2 hne]
    rfl
  · rw [Nat.add_assoc, runCycles_add _ _ _ _ (runCycles_idle ps _ s hs hps hi), Nat.add_comm 1 n]
    exact runCycles_succ_congr n _ _ (step_command_setByteValid w rest s _)

end Sys2Proof.Proofs
end

/-! Laws of the kernel's exact case, of what FILT records, and of FILT beside another command, and the statements of
40_iir_filter.md settled from them. -/

section

namespace Sys2Proof.Machine

open Sys2Proof.Safety

/-! The kernel where it flags, and where it does not (R87, R93, R98). -/

/-- A kernel step flags exactly if one of the four values it stores differs from the exact one. -/
theorem bq_violated_iff_ne (B : Build) (F : FilterState) (x : Int) :
    (bq B F x).violated = true ↔
      wrap B.accW (B.b0.toInt * x + F.w1) ≠ B.b0.toInt * x + F.w1 ∨
      (bq B F x).y ≠ asr (wrap B.accW (B.b0.toInt * x + F.w1)) B.coefShift ∨
      (bq B F x).next.w1 ≠ B.b1.toInt * x - B.a1.toInt * (bq B F x).y + F.w2 ∨
      (bq B F x).next.w2 ≠ B.b2.toInt * x - B.a2.toInt * (bq B F x).y := by
  simp only [bq, signedParam, Bool.or_eq_true, differs_eq_true, or_assoc]

/-- A kernel step that does not flag is the exact recursion, its output the floor of the exact sum. -/
theorem bq_exact (B : Build) (F : FilterState) (x : Int) (h : (bq B F x).violated = false) :
    (bq B F x).y = asr (B.b0.toInt * x + F.w1) B.coefShift ∧
    (bq B F x).next.w1 = B.b1.toInt * x - B.a1.toInt * (bq B F x).y + F.w2 ∧
    (bq B F x).next.w2 = B.b2.toInt * x - B.a2.toInt * (bq B F x).y := by
  have hne := mt (bq_violated_iff_ne B F x).2 (by simp [h])
  push Not at hne
  obtain ⟨hacc, hy, hw1, hw2⟩ := hne
  rw [hacc] at hy
  exact ⟨hy, hw1, hw2⟩

/-! What a command records (R47). -/

/-- After a command that leaves `range_violation` false, its `BQ` step did not flag. -/
theorem kernelFlags_eq_false_of_effect (i : Instr) (s : State) (h : (effect i s).rangeViolation = false) :
    kernelFlags i s = false := by
  rw [effect_rangeViolation, Bool.or_eq_false_iff, Bool.or_eq_false_iff] at h
  obtain ⟨-, -, hkernel⟩ := h
  exact hkernel

/-- FILT records the flag of its kernel step. -/
theorem effect_filt_rangeViolation_iff (x : Sample) (s : State) :
    (effect (.filt x) s).rangeViolation = true ↔
      s.rangeViolation = true ∨ (bq s.build s.f0 x.toInt).violated = true := iff_of_eq (Bool.or_eq_true _ _)

/-- DEMOD and SAMPLE record the flags of `FSK`. -/
theorem effect_fsk_rangeViolation_iff (i : Instr) (x : Sample) (s : State) (hi : i = .demod x ∨ i = .sample x) :
    (effect i s).rangeViolation = true ↔
      s.rangeViolation = true ∨ productClamps s.disc x = true ∨ (fskKernel s.build s.disc x).violated = true := by
  rw [effect_rangeViolation, Bool.or_eq_true, Bool.or_eq_true]
  obtain rfl | rfl := hi
  · rfl
  · rfl

/-! FILT before and after another command (R97, R176). -/

/-- FILT and `FSK` write different fields, but for `range_violation`, to which both only add. -/
theorem filtWrites_fskWrites (r : KernelResult) (q : FskResult) (s : State) :
    filtWrites r (fskWrites q s) = fskWrites q (filtWrites r s) := by
  have hflags : (s.rangeViolation || q.violated || r.violated) = (s.rangeViolation || r.violated || q.violated) :=
    Bool.or_right_comm _ _ _
  simp only [filtWrites, fskWrites, flagRv, State.setF0, State.setDisc, State.setYOut, State.setBitOut,
    State.setByteValid, hflags]

/-- FILT after another command leads where FILT before it does, but for `byte_valid`, which FILT clears. -/
theorem effect_filt_effect (x : Sample) (i : Instr) (s : State) (hi : ∀ y, i ≠ .filt y) :
    effect (.filt x) (effect i s) = (effect i (effect (.filt x) s)).setByteValid false := by
  have hfsk (y : Sample) := filtWrites_fskWrites (bq s.build s.f0 (sampleOperand x)) (fsk s.build s.disc y) s
  cases i with
  | filt y => exact absurd rfl (hi y)
  | demod y => exact congrArg (·.setByteValid false) (hfsk y)
  | sample y =>
    have hwrites := congrArg (uartWrites (uart s.build s.uart (fsk s.build s.disc y).bit)) (hfsk y)
    exact congrArg (·.setByteValid false) hwrites
  | _ => rfl

end Sys2Proof.Machine

namespace Sys2Proof.Safety

open Sys2Proof.Machine

/-- From a state of R42 two defined commands complete in the effect of the second on that of the first. -/
theorem execAll_pair (i j : Instr) (s : State) (hs : s.inRange = true) (hi : i.isDefined = true)
    (hj : j.isDefined = true) : execAll [i, j] s = .next (effect j (effect i s)) := by
  rw [execAll_cons i [j] s _ ((perform_eq_next _ _ _).2 ⟨hi, hs, rfl⟩), execAll_singleton, perform_eq_next]
  exact ⟨hj, effect_inRange i s hs, rfl⟩

/-- From a state of R42 FILT and another defined command complete in either order, in states that agree but for
`byte_valid`. -/
theorem execAll_filt_comm (x : Sample) (i : Instr) (s : State) (hs : s.inRange = true) (hd : i.isDefined = true)
    (hi : ∀ y, i ≠ .filt y) :
    execAll [.filt x, i] s = .next (effect i (effect (.filt x) s)) ∧
    execAll [i, .filt x] s = .next ((effect i (effect (.filt x) s)).setByteValid false) := by
  rw [execAll_pair _ _ s hs rfl hd, execAll_pair _ _ s hs hd rfl, effect_filt_effect x i s hi]
  exact ⟨rfl, rfl⟩

end Sys2Proof.Safety

namespace Sys2Proof.Proofs

open Sys2Proof.Machine
open Sys2Proof.Safety

/-- Settles O19: FILT writes the kernel's results on `F0`, and records exactly the kernel's flag. -/
theorem filtComputesTheBiquad : Obligations.FiltComputesTheBiquad := by
  refine ⟨fun s x hs => ?_, decode_of_op_filt⟩
  refine ⟨_, exec_of_inRange _ s hs, effect_filt_yOut_toInt x s, rfl, rfl, rfl, ?_⟩
  rw [effect_filt_rangeViolation_iff, bq_violated_iff_ne]
  rfl

/-- Settles O20: either premise says that the kernel step did not flag, and such a step is exact. -/
theorem filtIsExactWithoutViolation : Obligations.FiltIsExactWithoutViolation := by
  intro s t x h hv
  obtain ⟨-, rfl⟩ := (exec_eq_next _ _ _).1 h
  have hflag : kernelFlags (.filt x) s = false := hv.elim (kernelFlags_eq_false_of_effect _ s) id
  obtain ⟨hy, hw1, hw2⟩ := bq_exact s.build s.f0 x.toInt hflag
  obtain ⟨hlo, hhi⟩ := asr_bounds (s.build.b0.toInt * x.toInt + s.f0.w1) s.build.coefShift
  rw [← hy] at hlo hhi
  rw [effect_filt_yOut_toInt]
  exact ⟨hlo, hhi, hw1, hw2⟩

/-- Settles O22: each command records the flag of its kernel step, and that of its product, under the conditions of R93 and
of R106. -/
theorem violationIsRecordedExactly : Obligations.ViolationIsRecordedExactly := by
  refine fun s t x => ⟨fun h => ?_, fun h => ?_⟩
  · obtain ⟨-, rfl⟩ := (exec_eq_next _ _ _).1 h
    rw [effect_filt_rangeViolation_iff, bq_violated_iff]
  · obtain ⟨i, hi, h⟩ : ∃ i, (i = .demod x ∨ i = .sample x) ∧ exec i s = .next t :=
      h.elim (fun h => ⟨_, .inl rfl, h⟩) (fun h => ⟨_, .inr rfl, h⟩)
    obtain ⟨-, rfl⟩ := (exec_eq_next _ _ _).1 h
    rw [effect_fsk_rangeViolation_iff i x s hi, productClamps_iff, fskKernel, bq_violated_iff]
    rfl

/-- Settles O38: FILT commutes with each of the three but for `byte_valid`, which DEMOD clears as FILT does. -/
theorem filtCommutesWithTheStream : Obligations.FiltCommutesWithTheStream := by
  intro s x y b hs
  exact ⟨⟨_, execAll_filt_comm x (.demod y) s hs rfl nofun⟩, ⟨_, execAll_filt_comm x (.sample y) s hs rfl nofun⟩,
    ⟨_, execAll_filt_comm x (.decode b) s hs rfl nofun⟩⟩

end Sys2Proof.Proofs
end

/-! Laws of the discriminator step, of its delay line and of the fill-up after reset, and the statements of
41_fsk_discriminator.md settled from them. -/

section

namespace Sys2Proof.Machine

open Sys2Proof.Safety

/-! The discriminator step, register by register (R101). -/

@[simp] theorem fsk_next_f1 (B : Build) (D : DiscState) (x : Sample) :
    (fsk B D x).next.f1 = (fskKernel B D x).next := rfl

@[simp] theorem fsk_next_dl (B : Build) (D : DiscState) (x : Sample) :
    (fsk B D x).next.dl = memWrite D.dl D.ptr x := rfl

@[simp] theorem fsk_next_ptr (B : Build) (D : DiscState) (x : Sample) : (fsk B D x).next.ptr = nextPtr D.ptr := rfl

/-- Any command but DEMOD and SAMPLE leaves the discriminator and `bit_out` as they are. -/
theorem effect_disc_of_no_call (i : Instr) (s : State) (h : ∀ x, i ≠ .demod x ∧ i ≠ .sample x) :
    (effect i s).disc = s.disc ∧ (effect i s).bitOut = s.bitOut := by
  cases i with
  | demod x => exact absurd rfl (h x).1
  | sample x => exact absurd rfl (h x).2
  | _ => exact ⟨rfl, rfl⟩

/-- A command either calls the discriminator with one sample, or is another one and gives it none. -/
theorem call_or_no_call (i : Instr) :
    (∃ x, (i = .demod x ∨ i = .sample x) ∧ samplesOf [i] = [x]) ∨
    ((∀ x, i ≠ .demod x ∧ i ≠ .sample x) ∧ samplesOf [i] = []) := by
  cases i with
  | demod x => exact .inl ⟨x, .inl rfl, rfl⟩
  | sample x => exact .inl ⟨x, .inr rfl, rfl⟩
  | _ => exact .inr ⟨fun _ => ⟨nofun, nofun⟩, rfl⟩

theorem ptr_lt_of_inRange (s : State) (h : s.inRange = true) : s.disc.ptr.toNat < 22 := ((State.inRange_iff s).1 h).1

/-! The delay line counted from the oldest entry (R102 to R104). -/

theorem nthOldest_zero (D : DiscState) (h : D.ptr.toNat < 22) : nthOldest D 0 = memRead D.dl D.ptr := by
  simp [nthOldest, Nat.mod_eq_of_lt h]

/-- After a call entry `k` stands where entry `k + 1` stood before it. -/
theorem nthOldest_fsk (B : Build) (D : DiscState) (x : Sample) (k : Nat) :
    nthOldest (fsk B D x).next k =
      memRead (memWrite D.dl D.ptr x) (BitVec.ofNat 5 ((D.ptr.toNat + (k + 1)) % delayLen)) := by
  rw [nthOldest, fsk_next_dl, fsk_next_ptr, nextPtr_toNat, Nat.mod_add_mod, Nat.add_assoc, Nat.add_comm 1 k]

/-- The sample of a call is the newest entry after it. -/
theorem nthOldest_fsk_newest (B : Build) (D : DiscState) (x : Sample) (h : D.ptr.toNat < 22) :
    nthOldest (fsk B D x).next 21 = x := by
  have hround : BitVec.ofNat 5 ((D.ptr.toNat + (21 + 1)) % delayLen) = D.ptr := by
    simp [Nat.mod_eq_of_lt h]
  rw [nthOldest_fsk, hround, memRead_memWrite_same _ _ _ h]

/-- Every other entry is one place older after a call. -/
theorem nthOldest_fsk_older (B : Build) (D : DiscState) (x : Sample) (k : Nat) (h : D.ptr.toNat < 22) (hk : k < 21) :
    nthOldest (fsk B D x).next k = nthOldest D (k + 1) := by
  have hplace : D.ptr ≠ BitVec.ofNat 5 ((D.ptr.toNat + (k + 1)) % delayLen) := by
    intro he
    have hn := congrArg BitVec.toNat he
    rw [BitVec.toNat_ofNat, delayLen] at hn
    omega
  rw [nthOldest_fsk, memRead_memWrite_other _ _ _ _ hplace, nthOldest]

/-! The product conversion (R106). -/

/-- The clamp changes the shifted product of the two most negative samples, and no other. -/
theorem sat16_product_ne_iff (x d : Sample) :
    sat16 (asr (x.toInt * d.toInt) 15) ≠ asr (x.toInt * d.toInt) 15 ↔ x = 0x8000#16 ∧ d = 0x8000#16 := by
  have hfits := asr_mul_fits_iff _ _ (sampleOperand_bounds x) (sampleOperand_bounds d)
  rw [← sampleOperand_eq_least_iff, ← sampleOperand_eq_least_iff, ne_eq, sat16_eq_self_iff]
  exact not_iff_comm.1 hfits.symm

theorem sat16_extreme_product : sat16 (asr ((0x8000#16).toInt * (0x8000#16).toInt) 15) = 32767 := by decide

/-! The discriminator at rest (R110). -/

/-- With `F1` at rest and a delayed sample of 0, a call leaves `F1` at rest, decides on 0 and records nothing, whatever
the sample is. -/
theorem fsk_at_rest (B : Build) (D : DiscState) (x : Sample) (hf : D.f1 = .zero) (hd : memRead D.dl D.ptr = 0#16) :
    (fsk B D x).next.f1 = .zero ∧ (fsk B D x).bit = decide (B.thresh.toInt < 0) ∧ (fsk B D x).violated = false := by
  have hproduct : shiftedProduct D x = 0 := by simp [shiftedProduct, hd, sampleOperand]
  have hkernel : fskKernel B D x = ⟨0, .zero, false⟩ := by rw [fskKernel, hproduct, hf, sat16_zero, bq_zero]
  have hclamps : productClamps D x = false := by rw [productClamps, hproduct, sat16_zero, differs_eq_false]
  rw [fsk, hkernel, hclamps]
  exact ⟨rfl, rfl, rfl⟩

/-- A discriminator call records the flag of `FSK`. -/
theorem effect_rangeViolation_of_call (i : Instr) (x : Sample) (s : State) (hi : i = .demod x ∨ i = .sample x) :
    (effect i s).rangeViolation = (s.rangeViolation || (fsk s.build s.disc x).violated) := by
  obtain rfl | rfl := hi
  · rfl
  · rfl

/-- A command without a filter records nothing. -/
theorem effect_rangeViolation_of_no_filter (i : Instr) (s : State) (hi : ∀ x, i ≠ .demod x ∧ i ≠ .sample x)
    (hf : ∀ x, i ≠ .filt x) : (effect i s).rangeViolation = s.rangeViolation := by
  cases i with
  | filt x => exact absurd rfl (hf x)
  | demod x => exact absurd rfl (hi x).1
  | sample x => exact absurd rfl (hi x).2
  | _ => rfl

end Sys2Proof.Machine

namespace Sys2Proof.Safety

open Sys2Proof.Machine

/-! What a run of commands from reset has done to the discriminator (R104, R110). -/

theorem samplesOf_append (is js : List Instr) : samplesOf (is ++ js) = samplesOf is ++ samplesOf js := by
  induction is with
  | nil => rfl
  | cons i is ih => cases i <;> simp [samplesOf, ih]

/-- The delay line holds the last 22 of the samples `xs`, given in this order, with 0 for each sample there is not. -/
def HoldsSamples (xs : List Sample) (D : DiscState) : Prop :=
  ∀ k < 22, nthOldest D k = xs.reverse.getD (21 - k) 0#16

theorem holdsSamples_initial : HoldsSamples [] DiscState.initial := by
  unfold HoldsSamples
  decide

/-- A call pushes its sample into the delay line. -/
theorem HoldsSamples.append_sample {xs : List Sample} {D : DiscState} (h : HoldsSamples xs D) (B : Build) (x : Sample)
    (hp : D.ptr.toNat < 22) : HoldsSamples (xs ++ [x]) (fsk B D x).next := by
  intro k hk
  rw [List.reverse_concat]
  obtain rfl | hk : k = 21 ∨ k < 21 := by omega
  · exact nthOldest_fsk_newest B D x hp
  · have hage : 21 - k = 21 - (k + 1) + 1 := by omega
    rw [nthOldest_fsk_older B D x k hp hk, h (k + 1) (by omega), hage, List.getD_cons_succ]

/-- The delayed sample is the 22nd last one. -/
theorem HoldsSamples.memRead_ptr {xs : List Sample} {D : DiscState} (h : HoldsSamples xs D) (hp : D.ptr.toNat < 22) :
    memRead D.dl D.ptr = xs.reverse.getD 21 0#16 := by
  rw [← nthOldest_zero D hp]
  exact h 0 (by decide)

/-- The discriminator has been given nothing but products of 0 by the commands `is`: `F1` is at rest, `bit_out` is the
decision on 0 once there was a call, and only a FILT can have recorded a violation. -/
structure AtRest (B : Build) (is : List Instr) (s : State) : Prop where
  f1 : s.disc.f1 = .zero
  bitOut : samplesOf is ≠ [] → s.bitOut = decide (B.thresh.toInt < 0)
  unflagged : (∀ x, Instr.filt x ∉ is) → s.rangeViolation = false

/-- A call that reads a delayed sample of 0 leaves the discriminator at rest. -/
theorem AtRest.effect_of_call {is : List Instr} {s : State} (h : AtRest s.build is s) (i : Instr) (x : Sample)
    (hi : i = .demod x ∨ i = .sample x) (hd : memRead s.disc.dl s.disc.ptr = 0#16) :
    AtRest s.build (is ++ [i]) (effect i s) := by
  obtain ⟨hdisc, hbit⟩ := effect_disc_and_bitOut i x s hi
  obtain ⟨hf1, hdecision, hviolated⟩ := fsk_at_rest s.build s.disc x h.f1 hd
  refine ⟨by rw [hdisc, hf1], fun _ => hbit.trans hdecision, fun hfilt => ?_⟩
  have hrv := h.unflagged fun y hy => hfilt y (List.mem_append_left _ hy)
  rw [effect_rangeViolation_of_call i x s hi, hrv, hviolated]
  rfl

/-- Any other command leaves it at rest. -/
theorem AtRest.effect_of_no_call {B : Build} {is : List Instr} {s : State} (h : AtRest B is s) (i : Instr)
    (hi : ∀ x, i ≠ .demod x ∧ i ≠ .sample x) (hs : samplesOf [i] = []) : AtRest B (is ++ [i]) (effect i s) := by
  obtain ⟨hdisc, hbit⟩ := effect_disc_of_no_call i s hi
  refine ⟨by rw [hdisc, h.f1], fun hne => ?_, fun hfilt => ?_⟩
  · rw [samplesOf_append, hs, List.append_nil] at hne
    rw [hbit, h.bitOut hne]
  · rw [effect_rangeViolation_of_no_filter i s hi fun x hx => hfilt x (by simp [hx])]
    exact h.unflagged fun x hx => hfilt x (List.mem_append_left _ hx)

/-- What is true of the state a run of the commands `is` from reset leads to. -/
structure Reached (B : Build) (is : List Instr) (s : State) : Prop where
  inRange : s.inRange = true
  build : s.build = B
  delayLine : HoldsSamples (samplesOf is) s.disc
  fillUp : (samplesOf is).length ≤ 22 → AtRest B is s

theorem reached_resetOf (B : Build) : Reached B [] (State.resetOf B) :=
  ⟨State.resetOf_inRange B, rfl, holdsSamples_initial, fun _ => ⟨rfl, fun h => absurd rfl h, fun _ => rfl⟩⟩

/-- One more command. During the fill-up a call reads a sample the reset put there, which is 0. -/
theorem Reached.append_command {B : Build} {is : List Instr} {s : State} (h : Reached B is s) (i : Instr) :
    Reached B (is ++ [i]) (effect i s) := by
  obtain ⟨hs, rfl, hdl, hfill⟩ := h
  have hp := ptr_lt_of_inRange s hs
  obtain ⟨x, hi, hx⟩ | ⟨hi, hx⟩ := call_or_no_call i
  · refine ⟨effect_inRange i s hs, effect_build i s, ?_, fun hlen => ?_⟩
    · rw [samplesOf_append, hx, (effect_disc_and_bitOut i x s hi).1]
      exact hdl.append_sample s.build x hp
    · rw [samplesOf_append, hx, List.length_append, List.length_singleton] at hlen
      have hzero : memRead s.disc.dl s.disc.ptr = 0#16 := by
        rw [hdl.memRead_ptr hp, List.getD_eq_default _ _ (by rw [List.length_reverse]; omega)]
      exact (hfill (by omega)).effect_of_call i x hi hzero
  · refine ⟨effect_inRange i s hs, effect_build i s, ?_, fun hlen => ?_⟩
    · rwa [samplesOf_append, hx, List.append_nil, (effect_disc_of_no_call i s hi).1]
    · rw [samplesOf_append, hx, List.append_nil] at hlen
      exact (hfill hlen).effect_of_no_call i hi hx

/-- A run of defined commands from reset completes, and what it leads to is known. -/
theorem execAll_resetOf_reached (B : Build) (is : List Instr) (hd : ∀ i ∈ is, i.isDefined = true) :
    ∃ t, execAll is (State.resetOf B) = .next t ∧ Reached B is t := by
  induction is using List.reverseRecOn with
  | nil => exact ⟨_, rfl, reached_resetOf B⟩
  | append_singleton is i ih =>
    obtain ⟨s, hrun, hs⟩ := ih fun j hj => hd j (List.mem_append_left _ hj)
    refine ⟨effect i s, ?_, hs.append_command i⟩
    rw [execAll_append is [i] _ s hrun, execAll_singleton, perform_eq_next]
    exact ⟨hd i (by simp), hs.inRange, rfl⟩

end Sys2Proof.Safety

namespace Sys2Proof.Proofs

open Sys2Proof.Machine
open Sys2Proof.Safety

/-- Settles O24: a call writes `nextPtr`, and any other command leaves the discriminator as it is. -/
theorem onlyDiscriminatorCallsMoveThePointer : Obligations.OnlyDiscriminatorCallsMoveThePointer := by
  intro i s t h
  obtain ⟨-, rfl⟩ := (exec_eq_next _ _ _).1 h
  refine ⟨fun ⟨x, hi⟩ => ?_, fun hi => ?_⟩
  · rw [(effect_disc_and_bitOut i x s hi).1]
    exact nextPtr_toNat s.disc.ptr
  · rw [(effect_disc_of_no_call i s hi).1]
    exact ⟨rfl, rfl⟩

/-- Settles O25: the delay line a run from reset leads to holds its last 22 samples. -/
theorem delayedSampleIs22CallsOld : Obligations.DelayedSampleIs22CallsOld := by
  intro B is hd
  obtain ⟨t, hrun, ht⟩ := execAll_resetOf_reached B is hd
  exact ⟨t, hrun, ht.delayLine.memRead_ptr (ptr_lt_of_inRange t ht.inRange)⟩

/-- Settles O26: only the extreme product leaves 16 bits, and `F1` is given the clamped product, whose clamping is
recorded. -/
theorem onlyTheExtremeProductClamps : Obligations.OnlyTheExtremeProductClamps := by
  refine ⟨fun x d => ⟨sat16_product_ne_iff x d, ?_⟩, fun s t x h => ?_⟩
  · rintro rfl rfl
    exact sat16_extreme_product
  · obtain ⟨i, hi, h⟩ : ∃ i, (i = .demod x ∨ i = .sample x) ∧ exec i s = .next t :=
      h.elim (fun h => ⟨_, .inl rfl, h⟩) (fun h => ⟨_, .inr rfl, h⟩)
    obtain ⟨-, rfl⟩ := (exec_eq_next _ _ _).1 h
    have hf1 : (effect i s).disc.f1 =
        (bq s.build s.disc.f1 (sat16 (asr (x.toInt * (memRead s.disc.dl s.disc.ptr).toInt) 15))).next := by
      rw [(effect_disc_and_bitOut i x s hi).1]
      rfl
    refine ⟨hf1, fun hx hd => ⟨?_, ?_⟩⟩
    · exact (effect_fsk_rangeViolation_iff i x s hi).2 (.inr (.inl ((productClamps_iff _ _).2 ⟨hx, hd⟩)))
    · rw [hf1, hx, hd, sat16_extreme_product]

/-- Settles O27: up to the 22nd call a run from reset leaves the discriminator at rest. -/
theorem fillUpIgnoresTheSamples : Obligations.FillUpIgnoresTheSamples := by
  intro B is hd hne hlen
  obtain ⟨t, hrun, ht⟩ := execAll_resetOf_reached B is hd
  obtain ⟨hf1, hbit, hrv⟩ := ht.fillUp hlen
  exact ⟨t, hrun, hbit hne, hf1, hrv⟩

/-- Settles O36: a call writes the entry at `ptr`, and any other command leaves the delay line as it is. -/
theorem delayLineChangesOnlyAtThePointer : Obligations.DelayLineChangesOnlyAtThePointer := by
  intro i s hs
  refine ⟨_, exec_of_inRange i s hs, fun x hi => ?_, fun j hj => ?_, fun hi j => ?_⟩
  · rw [(effect_disc_and_bitOut i x s hi).1]
    exact memRead_memWrite_same _ _ _ (ptr_lt_of_inRange s hs)
  · obtain ⟨x, hi, -⟩ | ⟨hi, -⟩ := call_or_no_call i
    · rw [(effect_disc_and_bitOut i x s hi).1]
      exact memRead_memWrite_other _ _ _ _ hj.symm
    · rw [(effect_disc_of_no_call i s hi).1]
  · rw [(effect_disc_of_no_call i s hi).1]

/-- Settles O54: the write at `ptr` and the move of `ptr` together shift the line by one sample. -/
theorem delayLineShiftsByOneSamplePerCall : Obligations.DelayLineShiftsByOneSamplePerCall := by
  intro i s t h
  obtain ⟨hs, rfl⟩ := (exec_eq_next _ _ _).1 h
  have hp := ptr_lt_of_inRange s hs
  refine ⟨fun x hi => ?_, fun hi k => ?_⟩
  · rw [(effect_disc_and_bitOut i x s hi).1]
    exact ⟨nthOldest_fsk_newest _ _ x hp, fun k hk => nthOldest_fsk_older _ _ x k hp hk⟩
  · rw [(effect_disc_of_no_call i s hi).1]

/-- Settles O23: DEMOD writes the results of `FSK` and records its flags. -/
theorem demodComputesTheDiscriminator : Obligations.DemodComputesTheDiscriminator := by
  intro s x hs
  refine ⟨_, exec_of_inRange (.demod x) s hs, rfl, memRead_memWrite_same _ _ _ (ptr_lt_of_inRange s hs),
    fun j hj => memRead_memWrite_other _ _ _ _ hj.symm, nextPtr_toNat s.disc.ptr, above_eq_true _ _, rfl, ?_⟩
  rw [effect_fsk_rangeViolation_iff _ x s (.inl rfl), productClamps, differs_eq_true]
  rfl

end Sys2Proof.Proofs
end

/-! Laws of the UART step, row by row of its transition table, of runs of DECODEs and of the nominal frame, and the
statements of 42_uart_sampler.md settled from them. -/

section

namespace Sys2Proof.Machine

/-! The rows of the transition table (R116). -/

section
variable (B : Build) (U : UartState) (b : Bool)

theorem uart_idle_falling (hst : U.st = .idle) (hl : U.last = true) (hb : b = false) :
    uart B U b = ⟨{ U with st := .start, cnt := 0, last := b }, false⟩ := by
  simp [uart, uartAdvance, uartIdle, uartCompletes, hst, hl, hb]

theorem uart_idle_quiet (hst : U.st = .idle) (h : ¬ (U.last = true ∧ b = false)) :
    uart B U b = ⟨{ U with last := b }, false⟩ := by
  simp [uart, uartAdvance, uartIdle, uartCompletes, hst, h]

theorem uart_start_counts (hst : U.st = .start) (hc : U.cnt + 1 < B.half) :
    uart B U b = ⟨{ U with cnt := U.cnt + 1, last := b }, false⟩ := by
  simp [uart, uartAdvance, uartStart, uartCompletes, hst, hc.ne]

theorem uart_start_low (hst : U.st = .start) (hc : U.cnt + 1 = B.half) (hb : b = false) :
    uart B U b = ⟨{ U with st := .data, cnt := 0, bitn := 0#4, acc := 0x00#8, last := b }, false⟩ := by
  simp [uart, uartAdvance, uartStart, uartCompletes, hst, hc, hb]

theorem uart_start_high (hst : U.st = .start) (hc : U.cnt + 1 = B.half) (hb : b = true) :
    uart B U b = ⟨{ U with st := .idle, cnt := 0, last := b }, false⟩ := by
  simp [uart, uartAdvance, uartStart, uartCompletes, hst, hc, hb]

/-- A call of DATA or STOP with no sample due goes through `uartBetween`, and completes nothing. -/
theorem uart_not_due (hst : U.st = .data ∨ U.st = .stop) (hc : U.cnt + 1 < B.spb) :
    uart B U b = ⟨{ uartBetween B U b with last := b }, false⟩ := by
  obtain hst | hst := hst
  · simp [uart, uartAdvance, uartData, uartCompletes, hst, hc.ne]
  · simp [uart, uartAdvance, uartStop, uartCompletes, hst, hc.ne]

theorem uart_edge (hst : U.st = .data ∨ U.st = .stop) (hc : U.cnt + 1 < B.spb) (hb : b ≠ U.last) :
    uart B U b = ⟨{ U with cnt := B.spb - B.half, last := b }, false⟩ := by
  rw [uart_not_due B U b hst hc, uartBetween, if_pos hb]

theorem uart_no_edge (hst : U.st = .data ∨ U.st = .stop) (hc : U.cnt + 1 < B.spb) (hb : b = U.last) :
    uart B U b = ⟨{ U with cnt := U.cnt + 1, last := b }, false⟩ := by
  rw [uart_not_due B U b hst hc, uartBetween, if_neg (not_not.2 hb)]

theorem uart_data_sample (hst : U.st = .data) (hc : U.cnt + 1 = B.spb) (hn : U.bitn.toNat + 1 < 8) :
    uart B U b = ⟨{ U with acc := shiftIn b U.acc, bitn := U.bitn + 1#4, cnt := 0, last := b }, false⟩ := by
  have h8 : U.bitn + 1#4 ≠ 8#4 := fun h => hn.ne ((bitn_succ_eq_eight U.bitn (by omega)).1 h)
  simp [uart, uartAdvance, uartData, uartCompletes, hst, hc, h8]

theorem uart_data_last_sample (hst : U.st = .data) (hc : U.cnt + 1 = B.spb) (hn : U.bitn.toNat + 1 = 8) :
    uart B U b = ⟨{ U with st := .stop, acc := shiftIn b U.acc, bitn := 8#4, cnt := 0, last := b }, false⟩ := by
  have h8 : U.bitn + 1#4 = 8#4 := (bitn_succ_eq_eight U.bitn (by omega)).2 hn
  simp [uart, uartAdvance, uartData, uartCompletes, hst, hc, h8]

theorem uart_stop_high (hst : U.st = .stop) (hc : U.cnt + 1 = B.spb) (hb : b = true) :
    uart B U b = ⟨{ U with st := .idle, rxc := U.acc, cnt := 0, bitn := 0#4, last := b }, true⟩ := by
  simp [uart, uartAdvance, uartStop, uartCompletes, hst, hc, hb]

theorem uart_stop_low (hst : U.st = .stop) (hc : U.cnt + 1 = B.spb) (hb : b = false) :
    uart B U b = ⟨{ U with st := .idle, cnt := 0, bitn := 0#4, last := b }, false⟩ := by
  simp [uart, uartAdvance, uartStop, uartCompletes, hst, hc, hb]

end

/-- DECODE writes the result of the UART step. -/
theorem effect_decode_of_uart {s : State} {b : Bool} {U : UartState} {v : Bool} (h : uart s.build s.uart b = ⟨U, v⟩) :
    (effect (.decode b) s).uart = U ∧ (effect (.decode b) s).byteValid = v := by
  simp [effect, uartWrites, h]

/-! The assembly of the byte (R124). -/

theorem shiftIn_getLsbD (b : Bool) (acc : Byte) (i : Nat) :
    (shiftIn b acc).getLsbD i = if i < 7 then acc.getLsbD (i + 1) else decide (i = 7) && b := by
  rw [shiftIn, BitVec.getLsbD_append]
  split
  · simp [*, Nat.add_comm 1]
  · obtain rfl | hi : i = 7 ∨ 0 < i - 7 := by omega
    · simp
    · simp [show i ≠ 7 by omega, BitVec.getLsbD_ofBool, show i - 7 ≠ 0 by omega]

/-- The last `q` bits shifted into `acc` are `f 0`, ..., `f (q - 1)`, in this order. -/
def Assembled (f : Nat → Bool) (q : Nat) (acc : Byte) : Prop := ∀ k < q, acc.getLsbD (8 - q + k) = f k

theorem Assembled.shift {f : Nat → Bool} {q : Nat} {acc : Byte} (h : Assembled f q acc) (hq : q < 8) :
    Assembled f (q + 1) (shiftIn (f q) acc) := by
  intro k hk
  rw [shiftIn_getLsbD]
  obtain rfl | hkq : k = q ∨ k < q := by omega
  · rw [show 8 - (k + 1) + k = 7 by omega]
    simp
  · rw [if_pos (by omega), show 8 - (q + 1) + k + 1 = 8 - q + k by omega, h k hkq]

/-- Eight shifts assemble the whole byte. -/
theorem Assembled.eq_byte {v acc : Byte} (h : Assembled v.getLsbD 8 acc) : acc = v := by
  refine BitVec.eq_of_getLsbD_eq fun i hi => ?_
  simpa using h i hi

/-- Shifting in a list of at most eight bits assembles it. -/
theorem assembled_foldl_shiftIn (bs : List Bool) (acc : Byte) (h : bs.length ≤ 8) :
    Assembled (bs.getD · false) bs.length (bs.foldl (fun a b => shiftIn b a) acc) := by
  induction bs using List.reverseRecOn with
  | nil => exact fun k hk => absurd hk (Nat.not_lt_zero k)
  | append_singleton bs b ih =>
    rw [List.length_append, List.length_singleton] at h
    rw [List.foldl_append, List.length_append, List.length_singleton]
    have hpre : Assembled ((bs ++ [b]).getD · false) bs.length (bs.foldl (fun a b => shiftIn b a) acc) :=
      fun k hk => (ih (by omega) k hk).trans (List.getD_append _ _ _ _ hk).symm
    simpa using hpre.shift h

end Sys2Proof.Machine

namespace Sys2Proof.Safety

open Sys2Proof.Machine

/-! Runs of DECODEs (R134). -/

/-- From a state of R42 a DECODE at the head of a list is performed. -/
theorem execAll_decode_cons (b : Bool) (is : List Instr) (s : State) (hs : s.inRange = true) :
    execAll (.decode b :: is) s = execAll is (effect (.decode b) s) :=
  execAll_cons _ _ _ _ ((perform_eq_next _ _ _).2 ⟨rfl, hs, rfl⟩)

/-- The UART registers after the calls of `bs`. -/
def uartRun (B : Build) (U : UartState) (bs : List Bool) : UartState := bs.foldl (fun V b => (uart B V b).next) U

theorem uartRun_append_singleton (B : Build) (U : UartState) (bs : List Bool) (b : Bool) :
    uartRun B U (bs ++ [b]) = (uart B (uartRun B U bs) b).next := by simp [uartRun]

/-- A nonempty list of DECODEs writes the result of its last UART call, made on the registers that the calls before it
leave. -/
theorem execAll_decodes_append_singleton (bs : List Bool) (b : Bool) (s : State) (hs : s.inRange = true) :
    execAll ((bs ++ [b]).map Instr.decode) s = .next (uartWrites (uart s.build (uartRun s.build s.uart bs) b) s) := by
  induction bs generalizing s with
  | nil => exact execAll_decode_cons b [] s hs
  | cons c bs ih =>
    rw [List.cons_append, List.map_cons, execAll_decode_cons c _ s hs, ih _ (effect_inRange _ s hs)]
    rfl

/-- A list of DECODEs completes from a state of R42, with the UART registers that its calls leave. -/
theorem execAll_decodes_uart (bs : List Bool) (s : State) (hs : s.inRange = true) :
    ∃ t, execAll (bs.map Instr.decode) s = .next t ∧ t.uart = uartRun s.build s.uart bs := by
  obtain rfl | ⟨cs, b, rfl⟩ := List.eq_nil_or_concat' bs
  · exact ⟨s, rfl, rfl⟩
  · exact ⟨_, execAll_decodes_append_singleton cs b s hs, (uartRun_append_singleton _ _ _ _).symm⟩

/-! Held and toggling inputs in DATA and STOP (R139). -/

/-- An input held at the previous bit counts up to the next sample. -/
theorem uartRun_replicate_last (B : Build) (U : UartState) (k : Nat) (hst : U.st = .data ∨ U.st = .stop)
    (hk : U.cnt + k < B.spb) : uartRun B U (List.replicate k U.last) = { U with cnt := U.cnt + k } := by
  induction k with
  | zero => rfl
  | succ k ih =>
    rw [List.replicate_succ', uartRun_append_singleton, ih (by omega),
      uart_no_edge B { U with cnt := U.cnt + k } _ hst hk rfl]
    rfl

/-- A held input reaches, within `SPB` calls, a call whose midpoint sample is due: the first call re-anchors if it is an
edge, and the calls after it count. -/
theorem exists_uartRun_replicate_due (B : Build) (U : UartState) (b : Bool) (hst : U.st = .data ∨ U.st = .stop)
    (hc : U.cnt < B.spb) :
    ∃ k < B.spb, ∃ l, uartRun B U (List.replicate k b) = { U with cnt := B.spb - 1, last := l } := by
  have hhalf := half_pos B
  have hlt := half_lt_spb B
  obtain hdue | hdue := Nat.eq_or_lt_of_le hc
  · exact ⟨0, by omega, U.last, by rw [← hdue]; rfl⟩
  by_cases hb : b = U.last
  · subst hb
    refine ⟨B.spb - 1 - U.cnt, by omega, U.last, ?_⟩
    rw [uartRun_replicate_last B U _ hst (by omega), show U.cnt + (B.spb - 1 - U.cnt) = B.spb - 1 by omega]
  · have hrun (k : Nat) : uartRun B U (List.replicate (k + 1) b) =
        uartRun B { U with cnt := B.spb - B.half, last := b } (List.replicate k b) := by
      rw [uartRun, List.replicate_succ, List.foldl_cons, uart_edge B U b hst hdue hb]
      rfl
    refine ⟨B.half - 1 + 1, by omega, b, ?_⟩
    rw [hrun, uartRun_replicate_last B { U with cnt := B.spb - B.half, last := b } _ hst (by simp only; omega)]
    simp only [show B.spb - B.half + (B.half - 1) = B.spb - 1 by omega]

/-- With `HALF >= 2`, an input that toggles on every call re-anchors on every call. -/
theorem execAll_toggles (s : State) (n : Nat) (hs : s.inRange = true) (hhalf : 2 ≤ s.build.half)
    (hst : s.uart.st = .data ∨ s.uart.st = .stop) (hc : s.uart.cnt + 1 < s.build.spb) :
    ∃ t l, execAll ((toggles s.uart.last (n + 1)).map Instr.decode) s = .next t ∧
      t.uart = { s.uart with cnt := s.build.spb - s.build.half, last := l } ∧ t.byteValid = false := by
  induction n generalizing s with
  | zero =>
    obtain ⟨hu, hv⟩ := effect_decode_of_uart (uart_edge s.build s.uart (!s.uart.last) hst hc (by simp))
    exact ⟨_, _, execAll_decode_cons _ [] s hs, hu, hv⟩
  | succ n ih =>
    obtain ⟨hu, -⟩ := effect_decode_of_uart (uart_edge s.build s.uart (!s.uart.last) hst hc (by simp))
    have hlt := half_lt_spb s.build
    have htail := ih (effect (.decode (!s.uart.last)) s) (effect_inRange _ s hs)
    rw [hu, effect_build] at htail
    obtain ⟨t, l, hrun, ht, hv⟩ := htail hhalf hst (by simp only; omega)
    exact ⟨t, l, (execAll_decode_cons _ _ s hs).trans hrun, ht, hv⟩

/-! The nominal frame (R131, R132). -/

/-- The bit on the line at call `n` of a frame of `v`, and 1 after the frame. -/
def lineBit (B : Build) (v : Byte) (n : Nat) : Bool := (frameBits v).getD (n / B.spb) true

theorem heldFor_getElem? (m : Nat) (hm : 0 < m) (bs : List Bool) (n : Nat) : (heldFor m bs)[n]? = bs[n / m]? := by
  induction bs generalizing n with
  | nil => rfl
  | cons b bs ih =>
    obtain hn | hn := Nat.lt_or_ge n m
    · rw [heldFor, List.getElem?_append_left (by simpa), List.getElem?_replicate_of_lt hn, Nat.div_eq_of_lt hn]
      rfl
    · obtain ⟨k, rfl⟩ := Nat.exists_eq_add_of_le hn
      rw [heldFor, List.getElem?_append_right (by simp), List.length_replicate, Nat.add_sub_cancel_left, ih,
        Nat.add_div_left k hm, List.getElem?_cons_succ]

theorem take_succ_heldFor_frameBits (B : Build) (v : Byte) (n : Nat) (hn : n < 10 * B.spb) :
    (heldFor B.spb (frameBits v)).take (n + 1) = (heldFor B.spb (frameBits v)).take n ++ [lineBit B v n] := by
  have hspb := spb_ge B
  have hlt : n / B.spb < (frameBits v).length := Nat.div_lt_of_lt_mul (by rwa [Nat.mul_comm])
  rw [List.take_add_one, heldFor_getElem? _ (by omega), List.getElem?_eq_getElem hlt, lineBit,
    List.getD_eq_getElem _ _ hlt]
  rfl

theorem lineBit_start_bit (B : Build) (v : Byte) (n : Nat) (hn : n < B.spb) : lineBit B v n = false := by
  rw [lineBit, Nat.div_eq_of_lt hn]
  rfl

/-- Call `HALF + (k + 1) * SPB` lies in data bit `k` (R131). -/
theorem lineBit_data_midpoint (B : Build) (v : Byte) (k : Nat) (hk : k < 8) :
    lineBit B v (B.half + (k + 1) * B.spb) = v.getLsbD k := by
  have hlt := half_lt_spb B
  rw [lineBit, Nat.add_mul_div_right _ _ (by omega), Nat.div_eq_of_lt hlt, Nat.zero_add]
  interval_cases k <;> rfl

theorem lineBit_stop_bit (B : Build) (v : Byte) (n : Nat) (hn : 9 * B.spb ≤ n) : lineBit B v n = true := by
  have hspb := spb_ge B
  obtain ⟨j, hj⟩ := Nat.exists_eq_add_of_le' ((Nat.le_div_iff_mul_le (by omega)).2 hn)
  rw [lineBit, hj]
  cases j <;> rfl

/-- The line changes only between two bits. -/
theorem dvd_of_lineBit_ne (B : Build) (v : Byte) (n : Nat) (h : lineBit B v (n + 1) ≠ lineBit B v n) :
    B.spb ∣ n + 1 := by
  by_contra hd
  exact h (by rw [lineBit, lineBit, Nat.succ_div_of_not_dvd hd])

/-- The frame's samples so far, after `n` calls of a frame of `v`: the start bit's midpoint was call `HALF`, each sample
since came `SPB` calls after the one before it, and `bitn` data bits of `v` stand in `acc`. -/
structure Sampling (B : Build) (v : Byte) (n : Nat) (U : UartState) : Prop where
  calls : n = B.half + U.bitn.toNat * B.spb + U.cnt + 1
  cnt_lt : U.cnt < B.spb
  assembled : Assembled v.getLsbD U.bitn.toNat U.acc
  last : U.last = lineBit B v (B.half + U.bitn.toNat * B.spb + U.cnt)

/-- What the UART holds after `n` calls of a nominal frame of `v`, in each of its four states. -/
inductive OnFrame (B : Build) (v : Byte) (n : Nat) (U : UartState) : Prop where
  | idle (st : U.st = .idle) (last : U.last = true) (calls : n = 0 ∨ B.half + 9 * B.spb < n ∧ U.rxc = v)
  | start (st : U.st = .start) (cnt_lt : U.cnt < B.half) (calls : n = U.cnt + 1)
  | data (st : U.st = .data) (bitn_lt : U.bitn.toNat < 8) (sampling : Sampling B v n U)
  | stop (st : U.st = .stop) (bitn_eq : U.bitn.toNat = 8) (sampling : Sampling B v n U)

/-- Between two samples of a nominal frame every call counts: an edge comes at the start of a bit, `HALF` calls before its
midpoint, and re-anchors the counter to the value it would count to. -/
theorem Sampling.uart_counts {B : Build} {v : Byte} {n : Nat} {U : UartState} (h : Sampling B v n U)
    (hst : U.st = .data ∨ U.st = .stop) (hc : U.cnt + 1 < B.spb) :
    uart B U (lineBit B v n) = ⟨{ U with cnt := U.cnt + 1, last := lineBit B v n }, false⟩ := by
  have hhalf := half_pos B
  have hlt := half_lt_spb B
  obtain ⟨hn, -, -, hl⟩ := h
  by_cases hb : lineBit B v n = U.last
  · exact uart_no_edge B U _ hst hc hb
  · rw [uart_edge B U _ hst hc hb]
    obtain ⟨m, hm⟩ : B.spb ∣ n := by
      rw [hn]
      exact dvd_of_lineBit_ne B v _ (by rwa [← hn, ← hl])
    have hlo : U.bitn.toNat < m := Nat.lt_of_mul_lt_mul_left (a := B.spb) (by rw [Nat.mul_comm]; omega)
    have hhi : m < U.bitn.toNat + 2 :=
      Nat.lt_of_mul_lt_mul_left (a := B.spb) (by rw [Nat.mul_comm _ (_ + 2), Nat.add_mul]; omega)
    obtain rfl : m = U.bitn.toNat + 1 := by omega
    rw [Nat.mul_comm, Nat.succ_mul] at hm
    rw [show B.spb - B.half = U.cnt + 1 by omega]

/-- Counting keeps the samples so far. -/
theorem Sampling.counted {B : Build} {v : Byte} {n : Nat} {U : UartState} (h : Sampling B v n U)
    (hc : U.cnt + 1 < B.spb) :
    Sampling B v (n + 1) { U with cnt := U.cnt + 1, last := lineBit B v n } := by
  obtain ⟨rfl, -, hacc, -⟩ := h
  exact ⟨by simp only; omega, hc, hacc, rfl⟩

/-- The call after the counter's last value is the midpoint of the next bit. -/
theorem Sampling.due {B : Build} {v : Byte} {n : Nat} {U : UartState} (h : Sampling B v n U) (hc : U.cnt + 1 = B.spb) :
    n = B.half + (U.bitn.toNat + 1) * B.spb := by
  rw [h.calls, Nat.succ_mul]
  omega

/-- The sample of data bit `bitn` shifts it in. -/
theorem Sampling.sampled {B : Build} {v : Byte} {n : Nat} {U V : UartState} (h : Sampling B v n U)
    (hc : U.cnt + 1 = B.spb) (hq : U.bitn.toNat < 8) (hbitn : V.bitn.toNat = U.bitn.toNat + 1)
    (hacc : V.acc = shiftIn (lineBit B v n) U.acc) (hcnt : V.cnt = 0) (hlast : V.last = lineBit B v n) :
    Sampling B v (n + 1) V := by
  have hn := h.due hc
  have hbit : lineBit B v n = v.getLsbD U.bitn.toNat := by rw [hn, lineBit_data_midpoint B v _ hq]
  have hspb := spb_ge B
  constructor
  case calls => rw [hbitn, hcnt, hn]
  case cnt_lt => omega
  case assembled =>
    rw [hbitn, hacc, hbit]
    exact h.assembled.shift hq
  case last => rw [hlast, hbitn, hcnt, Nat.add_zero, hn]

/-- Each call of a nominal frame leads to what the UART holds after one call more. -/
theorem OnFrame.call {B : Build} {v : Byte} {n : Nat} {U : UartState} (h : OnFrame B v n U) :
    OnFrame B v (n + 1) (uart B U (lineBit B v n)).next := by
  have hspb := spb_ge B
  have hhalf := half_pos B
  have hlt := half_lt_spb B
  cases h with
  | idle hst hl hn =>
    obtain rfl | ⟨hn, hv⟩ := hn
    · rw [uart_idle_falling B U _ hst hl (lineBit_start_bit B v 0 (by omega))]
      exact .start rfl hhalf rfl
    · have hb := lineBit_stop_bit B v n (by omega)
      rw [uart_idle_quiet B U _ hst (by simp [hb])]
      exact .idle hst hb (.inr ⟨by omega, hv⟩)
  | start hst hc hn =>
    obtain hdue | hdue := Nat.eq_or_lt_of_le hc
    · obtain rfl : n = B.half := hn.trans hdue
      rw [uart_start_low B U _ hst hdue (lineBit_start_bit B v _ hlt)]
      refine .data rfl (by simp) ⟨?_, ?_, fun k hk => absurd hk (Nat.not_lt_zero k), ?_⟩
      · simp
      · simp only; omega
      · simp
    · rw [uart_start_counts B U _ hst hdue]
      exact .start hst hdue (by rw [hn])
  | data hst hq h =>
    obtain hdue | hdue := Nat.eq_or_lt_of_le h.cnt_lt
    · obtain hlast | hmore := Nat.eq_or_lt_of_le hq
      · rw [uart_data_last_sample B U _ hst hdue hlast]
        exact .stop rfl rfl (h.sampled hdue hq hlast.symm rfl rfl rfl)
      · rw [uart_data_sample B U _ hst hdue hmore]
        have hbitn := bitn_succ_toNat U.bitn hq
        exact .data hst (by rwa [hbitn]) (h.sampled hdue hq hbitn rfl rfl rfl)
    · rw [h.uart_counts (.inl hst) hdue]
      exact .data hst hq (h.counted hdue)
  | stop hst hq h =>
    obtain hdue | hdue := Nat.eq_or_lt_of_le h.cnt_lt
    · have hn := h.due hdue
      rw [hq] at hn
      have hacc := h.assembled
      rw [hq] at hacc
      have hb := lineBit_stop_bit B v n (by omega)
      rw [uart_stop_high B U _ hst hdue hb]
      exact .idle rfl hb (.inr ⟨by omega, hacc.eq_byte⟩)
    · rw [h.uart_counts (.inr hst) hdue]
      exact .stop hst hq (h.counted hdue)

/-- The samples so far bound the calls so far. -/
theorem Sampling.calls_le {B : Build} {v : Byte} {n q : Nat} {U : UartState} (h : Sampling B v n U)
    (hq : U.bitn.toNat ≤ q) : n ≤ B.half + q * B.spb + B.spb := by
  have hmul := Nat.mul_le_mul_right B.spb hq
  have hcalls := h.calls
  have hcnt := h.cnt_lt
  omega

/-- After the midpoint of the stop bit the frame is over, and its byte is held. -/
theorem OnFrame.after_stop_midpoint {B : Build} {v : Byte} {n : Nat} {U : UartState} (h : OnFrame B v n U)
    (hn : B.half + 9 * B.spb < n) : U.rxc = v ∧ U.st = .idle := by
  cases h with
  | idle hst hl hcalls => exact ⟨(hcalls.resolve_left (by omega)).2, hst⟩
  | start hst hc hcalls => omega
  | data hst hq h => have := h.calls_le hq.le; omega
  | stop hst hq h => have := h.calls_le hq.le; omega

/-- Call `n` of a nominal frame completes a character exactly if it is the midpoint of the stop bit. -/
theorem OnFrame.completes_iff {B : Build} {v : Byte} {n : Nat} {U : UartState} (h : OnFrame B v n U) :
    Completes B U (lineBit B v n) ↔ n = B.half + 9 * B.spb := by
  have hspb := spb_ge B
  constructor
  · rintro ⟨hst', hc, -⟩
    cases h with
    | stop hst hq h => simpa [hq] using h.due hc
    | _ hst => simp [hst] at hst'
  · intro hn
    have hb := lineBit_stop_bit B v n (by omega)
    cases h with
    | idle hst hl hcalls => omega
    | start hst hc hcalls => omega
    | data hst hq h => have := h.calls_le (q := 7) (by omega); omega
    | stop hst hq h =>
      have hcalls := h.calls
      rw [hq] at hcalls
      exact ⟨hst, by omega, hb⟩

/-- From an idle UART on a line at 1, `n` calls of a nominal frame lead to what the UART holds after them. -/
theorem onFrame_uartRun (B : Build) (v : Byte) (U : UartState) (hst : U.st = .idle) (hl : U.last = true) (n : Nat)
    (hn : n ≤ 10 * B.spb) : OnFrame B v n (uartRun B U ((heldFor B.spb (frameBits v)).take n)) := by
  induction n with
  | zero => exact .idle hst hl (.inl rfl)
  | succ n ih =>
    rw [take_succ_heldFor_frameBits B v n hn, uartRun_append_singleton]
    exact (ih (by omega)).call

end Sys2Proof.Safety

namespace Sys2Proof.Proofs

open Sys2Proof.Machine
open Sys2Proof.Safety

/-- Settles O28: each row of R116 is a row of the UART step, which DECODE writes. -/
theorem uartTransitionTable : Obligations.UartTransitionTable := by
  intro s b hs
  exact ⟨_, exec_of_inRange (.decode b) s hs,
    fun hst hl hb => effect_decode_of_uart (uart_idle_falling _ _ _ hst hl hb),
    fun hst h => effect_decode_of_uart (uart_idle_quiet _ _ _ hst h),
    fun hst hc hb => effect_decode_of_uart (uart_start_low _ _ _ hst hc hb),
    fun hst hc hb => effect_decode_of_uart (uart_start_high _ _ _ hst hc hb),
    fun hst hc => effect_decode_of_uart (uart_start_counts _ _ _ hst hc),
    fun hst hc hn => effect_decode_of_uart (uart_data_sample _ _ _ hst hc hn),
    fun hst hc hn => effect_decode_of_uart (uart_data_last_sample _ _ _ hst hc hn),
    fun hst hc hb => effect_decode_of_uart (uart_edge _ _ _ (.inl hst) hc hb),
    fun hst hc hb => effect_decode_of_uart (uart_no_edge _ _ _ (.inl hst) hc hb),
    fun hst hc hb => effect_decode_of_uart (uart_stop_high _ _ _ hst hc hb),
    fun hst hc hb => effect_decode_of_uart (uart_stop_low _ _ _ hst hc hb),
    fun hst hc hb => effect_decode_of_uart (uart_edge _ _ _ (.inr hst) hc hb),
    fun hst hc hb => effect_decode_of_uart (uart_no_edge _ _ _ (.inr hst) hc hb)⟩

/-- Settles O29: the assembly of a list, read bit by bit; the output ports show `rxc` and not `acc`. -/
theorem shiftsAssembleLsbFirst : Obligations.ShiftsAssembleLsbFirst := by
  refine ⟨fun b acc => rfl, fun bs acc k hlen hk => ?_, fun s a => rfl⟩
  exact (assembled_foldl_shiftIn bs acc hlen k hk).trans (List.getD_eq_getElem _ _ hk)

/-- Settles O32: URST writes the reset registers of the UART, whatever stood there; `op` alone selects it. -/
theorem urstResetsTheUartOnly : Obligations.UrstResetsTheUartOnly := by
  refine ⟨fun s hs => ?_, decode_of_op_urst⟩
  have hurst := exec_of_inRange .urst s hs
  exact ⟨hurst, (execAll_pair .urst .urst s hs rfl rfl).trans hurst.symm⟩

/-- Settles O51: each call of the frame keeps `OnFrame`, which says where the frame stands and when it completes. -/
theorem nominalFrameYieldsItsByteOnce : Obligations.NominalFrameYieldsItsByteOnce := by
  intro s v n hs hst hl hn
  have hbefore := onFrame_uartRun s.build v s.uart hst hl n hn.le
  rw [take_succ_heldFor_frameBits _ _ _ hn]
  exact ⟨_, execAll_decodes_append_singleton _ _ s hs, (uart_valid _ _ _).trans hbefore.completes_iff,
    fun hle => hbefore.call.after_stop_midpoint (Nat.lt_succ_of_le hle)⟩

/-- Settles O52: a held input counts up, from the re-anchored counter if its first call is an edge. -/
theorem heldInputReachesASample : Obligations.HeldInputReachesASample := by
  intro s b hs hst
  obtain ⟨-, huart⟩ := (State.inRange_iff s).1 hs
  obtain ⟨-, -, -, -, hcnt⟩ := uart_inRange_clauses _ _ huart
  obtain ⟨k, hk, l, hdue⟩ := exists_uartRun_replicate_due s.build s.uart b hst (hcnt hst)
  obtain ⟨t, hrun, ht⟩ := execAll_decodes_uart (List.replicate k b) s hs
  rw [List.map_replicate] at hrun
  rw [hdue] at ht
  refine ⟨k, hk, t, hrun, ?_⟩
  rw [ht]
  exact ⟨rfl, rfl, rfl, by simp only; omega⟩

/-- Settles O53: toggling calls write the counter and `last` alone. -/
theorem togglingInputStarvesTheUart : Obligations.TogglingInputStarvesTheUart := by
  intro s n hs hhalf hst hc
  obtain ⟨t, l, hrun, ht, hv⟩ := execAll_toggles s n hs hhalf hst hc
  refine ⟨t, hrun, ?_⟩
  rw [ht]
  exact ⟨rfl, rfl, rfl, rfl, rfl, hv⟩

end Sys2Proof.Proofs
end

/-! Laws of SAMPLE as DEMOD followed by DECODE, and the statements of 43_pipeline_control.md settled from them. -/

section

namespace Sys2Proof.Machine

/-! What a UART call reads after a discriminator step and writes over it (R109, R134, R141). -/

@[simp] theorem fskWrites_build (r : FskResult) (s : State) : (fskWrites r s).build = s.build := rfl

@[simp] theorem fskWrites_uart (r : FskResult) (s : State) : (fskWrites r s).uart = s.uart := rfl

@[simp] theorem fskWrites_bitOut (r : FskResult) (s : State) : (fskWrites r s).bitOut = r.bit := rfl

/-- The writes of a UART call overwrite `byte_valid`. -/
@[simp] theorem uartWrites_setByteValid (r : UartResult) (s : State) (v : Bool) :
    uartWrites r (s.setByteValid v) = uartWrites r s := rfl

/-- DECODE of the bit DEMOD produced reads the UART that DEMOD left alone and overwrites the `byte_valid` it cleared, which
together is SAMPLE (R142). -/
theorem effect_decode_effect_demod (x : Sample) (s : State) :
    effect (.decode (effect (.demod x) s).bitOut) (effect (.demod x) s) = effect (.sample x) s := by
  simp [effect]

end Sys2Proof.Machine

namespace Sys2Proof.Proofs

open Sys2Proof.Machine

/-- Settles O34: DEMOD stays in R42, so that DECODE completes after it, and the two effects compose to that of SAMPLE. -/
theorem sampleEqualsDemodThenDecode : Obligations.SampleEqualsDemodThenDecode := by
  intro s x hs
  have hmid : (effect (.demod x) s).inRange = true := effect_inRange _ s hs
  refine ⟨effect (.demod x) s, effect (.sample x) s, exec_of_inRange _ s hs, rfl, ?_, exec_of_inRange _ s hs⟩
  rw [exec_of_inRange _ _ hmid, effect_decode_effect_demod]

/-- Settles O11: the idle cycle completes from every state of R42. -/
theorem idleCycleClearsByteValidOnly : Obligations.IdleCycleClearsByteValidOnly := cycle_of_idle

/-- Settles O16: the effect of NOP, and the row of `op = 000`. -/
theorem nopClearsByteValidOnly : Obligations.NopClearsByteValidOnly :=
  ⟨exec_of_inRange .nop, decode_of_op_nop⟩

/-- Settles O33: the effect of SAMPLE is the writes of `FSK` and then those of `UART` on its bit; `op` alone selects it. -/
theorem sampleRunsDiscriminatorThenUart : Obligations.SampleRunsDiscriminatorThenUart :=
  ⟨fun s x => exec_of_inRange (.sample x) s, decode_of_op_sample⟩

end Sys2Proof.Proofs
end

/-! Laws of a held reset, and the statement of 70_reset_and_hazards.md settled from them. -/

section

namespace Sys2Proof.Safety

open Sys2Proof.Machine

theorem step_of_rst (s : State) (p : PortIn) (rest : List PortIn) (hi : s.inputs = p :: rest) (hp : p.rst = true) :
    step s = .next ((State.resetOf s.build).setInputs rest) :=
  (step_of_inputs s p rest hi).trans (cycle_of_rst p _ hp)

/-- Further reset cycles leave the reset state as it is, and consume their inputs. -/
theorem runCycles_resetOf_held (B : Build) (ps rest : List PortIn) (hps : ∀ p ∈ ps, p.rst = true) :
    runCycles ps.length ((State.resetOf B).setInputs (ps ++ rest)) = .next ((State.resetOf B).setInputs rest) := by
  induction ps with
  | nil => rfl
  | cons p ps ih =>
    obtain ⟨hp, hps⟩ := List.forall_mem_cons.1 hps
    rw [List.length_cons, runCycles_succ _ _ _ (step_of_rst _ p (ps ++ rest) rfl hp)]
    exact ih hps

/-- The first cycle of a held reset reaches the reset state, the others stay in it (R167). -/
theorem runCycles_held_reset (s : State) (ps rest : List PortIn) (hne : ps ≠ []) (hps : ∀ p ∈ ps, p.rst = true)
    (hi : s.inputs = ps ++ rest) :
    runCycles ps.length s = .next ((State.resetOf s.build).setInputs rest) := by
  cases ps with
  | nil => exact absurd rfl hne
  | cons p ps =>
    obtain ⟨hp, hps⟩ := List.forall_mem_cons.1 hps
    rw [List.length_cons, runCycles_succ _ _ _ (step_of_rst s p (ps ++ rest) hi hp)]
    exact runCycles_resetOf_held s.build ps rest hps

end Sys2Proof.Safety

namespace Sys2Proof.Proofs

open Sys2Proof.Machine
open Sys2Proof.Safety

/-- Settles O14: the held reset ends in the reset state, which meets R42, so that the next command completes from it. -/
theorem heldResetActsOnce : Obligations.HeldResetActsOnce := by
  intro s ps rest hne hps hi
  have hreset := runCycles_held_reset s ps rest hne hps hi
  refine ⟨hreset, ?_⟩
  rintro w more rfl hd
  have hrange : ((State.resetOf s.build).setInputs more).inRange = true := State.resetOf_inRange s.build
  have hstep : step ((State.resetOf s.build).setInputs (PortIn.command w :: more)) =
      .next (effect (decode w) ((State.resetOf s.build).setInputs more)) :=
    (step_of_inputs _ _ more rfl).trans (cycle_command_of_inRange w _ hd hrange)
  exact ⟨_, (runCycles_add _ 1 _ _ hreset).trans (runCycles_succ 0 _ _ hstep), exec_of_inRange (decode w) _ hrange⟩

end Sys2Proof.Proofs
end

/-! Laws of a build with wider accumulators, and the statement of 93_implementation_defined.md U5 settled from them. -/

section

namespace Sys2Proof.Machine

open Sys2Proof.Safety

/-- A value that `wrap` keeps at some width is kept at every larger one. -/
theorem wrap_eq_self_of_le (m n : Nat) (hm : 1 ≤ m) (hmn : m ≤ n) (v : Int) (h : wrap m v = v) : wrap n v = v := by
  obtain ⟨hlo, hhi⟩ := (wrap_eq_self_iff m hm v).1 h
  have hpow : (2 : Int) ^ (m - 1) ≤ 2 ^ (n - 1) := pow_le_pow_right₀ (by norm_num) (by omega)
  exact wrap_of_fits n (by omega) v (by omega) (by omega)

@[simp] theorem widen_inRange (n : Nat) (s : State) : (widen n s).inRange = s.inRange := rfl

theorem widen_accW (n : Nat) (s : State) : (widen n s).build.accW = s.build.accW + n := by
  simp only [widen, Build.accW]
  omega

/-- A kernel step that does not flag wraps none of its sums, so it goes the same with wider accumulators. -/
theorem bq_widen (n : Nat) (s : State) (F : FilterState) (x : Int) (h : (bq s.build F x).violated = false) :
    bq (widen n s).build F x = bq s.build F x := by
  have hwrap (v : Int) (hv : wrap s.build.accW v = v) : wrap (widen n s).build.accW v = wrap s.build.accW v := by
    rw [hv, widen_accW]
    exact wrap_eq_self_of_le _ _ (accW_pos s.build) (Nat.le_add_right _ n) v hv
  simp only [bq, Bool.or_eq_false_iff, differs_eq_false] at h
  obtain ⟨⟨⟨hacc, -⟩, hw1⟩, hw2⟩ := h
  have hopen : (widen n s).build.toOpenParams = s.build.toOpenParams := rfl
  have hshift : (widen n s).build.coefShift = s.build.coefShift := rfl
  simp only [bq, hopen, hshift, hwrap _ hacc, hwrap _ hw1, hwrap _ hw2]

/-- A discriminator step whose kernel step does not flag goes the same with wider accumulators. -/
theorem fsk_widen (n : Nat) (s : State) (x : Sample) (h : (fskKernel s.build s.disc x).violated = false) :
    fsk (widen n s).build s.disc x = fsk s.build s.disc x := by
  have hkernel : fskKernel (widen n s).build s.disc x = fskKernel s.build s.disc x := bq_widen n s _ _ h
  rw [fsk, hkernel]
  rfl

/-- The width of the accumulators enters a command through its `BQ` step alone: one that does not flag there has the
same effect with wider ones. -/
theorem effect_widen (n : Nat) (i : Instr) (s : State) (h : kernelFlags i s = false) :
    effect i (widen n s) = widen n (effect i s) := by
  cases i with
  | filt x => exact congrArg (filtWrites · (widen n s)) (bq_widen n s _ _ h)
  | demod x => exact congrArg (fun r => (fskWrites r (widen n s)).setByteValid false) (fsk_widen n s x h)
  | sample x =>
    exact congrArg (fun r => uartWrites (uart s.build s.uart r.bit) (fskWrites r (widen n s))) (fsk_widen n s x h)
  | _ => rfl

end Sys2Proof.Machine

namespace Sys2Proof.Proofs

open Sys2Proof.Machine
open Sys2Proof.Safety

/-- Settles O41: a command that leaves `range_violation` false has not flagged in its `BQ` step, the one place where the
width of the accumulators is read. -/
theorem resultsDoNotDependOnAccWidth : Obligations.ResultsDoNotDependOnAccWidth := by
  intro i s t n h hv
  obtain ⟨hs, rfl⟩ := (exec_eq_next i s t).1 h
  rw [exec_of_inRange i (widen n s) hs, effect_widen n i s (kernelFlags_eq_false_of_effect i s hv)]

end Sys2Proof.Proofs
end

/-! Laws of where a cycle stops, of placed words and of an exhausted host, and the statements on the cycle and on the
reserved codes (30_encoding.md R78, 43_pipeline_control.md R145 and R150, 60_exceptions.md R166) settled from them. -/

section

namespace Sys2Proof.Machine

open Sys2Proof.Safety

/-! Where a cycle stops (R150, R166). -/

theorem acceptsReserved_iff (p : PortIn) :
    AcceptsReserved p ↔ p.rst = false ∧ p.cmdValid = true ∧ (decode p.word).isDefined = false := by
  rw [isDefined_eq_false_iff, opcodeOf_decode_word]
  rfl

theorem cycle_of_no_command (p : PortIn) (s : State) (hr : p.rst = false) (hv : p.cmdValid = false) :
    cycle p s = complete s (s.setByteValid false) := by simp [cycle, hr, hv, idleCycle]

/-- A cycle is refused exactly if it accepts a reserved code, with that code. -/
theorem cycle_eq_refused (p : PortIn) (s : State) (r : Refusal) :
    cycle p s = .refused r ↔ AcceptsReserved p ∧ r = .reservedCommand p.cmdOp := by
  rw [acceptsReserved_iff, ← opcodeOf_decode_word]
  cases hr : p.rst with
  | true => simp [cycle_of_rst p s hr]
  | false =>
    cases hv : p.cmdValid with
    | true => simp [cycle_of_cmdValid p s hr hv, perform_eq_refused]
    | false => simp [cycle_of_no_command p s hr hv, complete_ne_refused]

/-- A cycle faults exactly if it is no reset, accepts no reserved code, and the state is outside R42. -/
theorem cycle_eq_fault (p : PortIn) (s : State) (f : Fault) :
    cycle p s = .fault f ↔ p.rst = false ∧ ¬ AcceptsReserved p ∧ s.inRange = false := by
  rw [acceptsReserved_iff]
  cases hr : p.rst with
  | true => simp [cycle_of_rst p s hr]
  | false =>
    cases hv : p.cmdValid with
    | true => simp [cycle_of_cmdValid p s hr hv, perform_eq_fault]
    | false => simp [cycle_of_no_command p s hr hv, complete_eq_fault]

/-! A placed word, and a host with nothing left to present. -/

theorem decode_of_decodeTableWord (nbits w : Nat) (i : Instr) (h : decodeTableWord nbits w = some i) :
    decode (BitVec.ofNat 19 (w % 2 ^ nbits)) = i := by
  unfold decodeTableWord decodeNumber at h
  split_ifs at h
  exact Option.some.inj h

/-- The placed word stands before whatever the host was to present, so a step consumes it alone. -/
theorem step_withFetchWord (s : State) (nbits w : Nat) :
    step (s.withFetchWord nbits w) = perform (decode (BitVec.ofNat 19 (w % 2 ^ nbits))) s :=
  (step_of_inputs _ _ s.inputs rfl).trans (cycle_command _ s)

theorem step_of_inputs_nil (s : State) (h : s.inputs = []) : step s = cycle PortIn.idle s := by
  have hadvance : s.advance = s := by rw [State.advance, h, List.tail_nil, ← h, State.setInputs_inputs_self]
  rw [step, hadvance, State.presented, h]
  rfl

end Sys2Proof.Machine

namespace Sys2Proof.Proofs

open Sys2Proof.Machine
open Sys2Proof.Safety

/-- Settles O45: the step is the cycle of the presented ports, whose two stops are told apart by what it accepts. -/
theorem stepStopsOnlyOnReservedOrOutsideTheInvariants : Obligations.StepStopsOnlyOnReservedOrOutsideTheInvariants := by
  refine fun s => ⟨cycle_eq_refused s.presented s.advance, fun f => ?_⟩
  have honly : f = .outsideInvariants := by cases f; rfl
  rw [step, cycle_eq_fault, State.advance_inRange]
  simp only [honly, and_true]

/-- Settles O5: each word by evaluation of the decoder. -/
theorem wordsOfTheSpecDecode : Obligations.WordsOfTheSpecDecode := by
  unfold Obligations.WordsOfTheSpecDecode
  decide

/-- Settles O9: the step performs the placed word's command, which is executed or, as a reserved code, refused. -/
theorem placedWordRunsNext : Obligations.PlacedWordRunsNext := by
  intro s nbits w i h
  rw [step_withFetchWord, decode_of_decodeTableWord nbits w i h]
  exact ⟨perform_of_isDefined i s, perform_of_reserved i s⟩

/-- Settles O10: a law for each of the four kinds of cycle. -/
theorem cyclePriorityOrder : Obligations.CyclePriorityOrder := by
  refine fun p s => ⟨cycle_of_rst p s, fun hr hv hd => ?_, fun hr hv hd => ?_, cycle_of_idle p s⟩
  · rw [cycle_of_cmdValid p s hr hv, perform_of_isDefined _ s hd]
  · exact (cycle_eq_refused p s _).2 ⟨(acceptsReserved_iff p).2 ⟨hr, hv, hd⟩, rfl⟩

/-- Settles O12: with nothing left to present the cycle is that of the idle ports. -/
theorem exhaustedHostLeavesCyclesIdle : Obligations.ExhaustedHostLeavesCyclesIdle := fun s hi hs =>
  (step_of_inputs_nil s hi).trans (cycle_of_idle PortIn.idle s rfl rfl hs)

/-- Settles O17: the effect of both codes is that of NOP, and a cycle that accepts one is refused. -/
theorem reservedCodesActAsNop : Obligations.ReservedCodesActAsNop :=
  ⟨fun s hs => ⟨exec_of_inRange .reserved110 s hs, exec_of_inRange .reserved111 s hs⟩,
    fun p s hp => (cycle_eq_refused p s _).2 ⟨hp, rfl⟩⟩

end Sys2Proof.Proofs
end
